-- ==== Sys2Proof/Word.lean ====
section
/-! DEFINITION. The fixed-width values of the interface (00_scope.md R7, R13): the word, the 64-bit lane, the
binary64 datum and the command word. -/

namespace Sys2Proof

/-- A word: "a 16-bit unsigned value, the atomic unit of the wire representation" (R7, R28). -/
abbrev Word := BitVec 16

/-- One 64-bit lane, holding a long (32 bits) or a long-long (64 bits) (R28, R46). -/
abbrev Long := BitVec 64

/-- A binary64 datum, as its 64 bits (R13, R186). -/
abbrev F64 := BitVec 64

/-- The 32-bit command word (R28, R60). -/
abbrev Command := BitVec 32

end Sys2Proof
end

