-- ==== Sys2Proof/Config.lean ====
section
/-! DEFINITION. What the spec leaves to the implementation (00_scope.md R8, 93_implementation_defined.md section 3),
and the free values. Every constant is opaque: nothing can be proved about its value but the range the spec gives. -/

namespace Sys2Proof

/-- A binary64 NaN: a sign, the exponent field all ones, and a fraction field `fractionBelow + 1`, so that the values
of this type are exactly the binary64 NaNs (43_ieee754.md R185). -/
structure NaN64 where
  negative : Bool
  fractionBelow : Fin 4503599627370495
deriving DecidableEq, Repr, Inhabited

namespace Config

/-- How far NMAX lies above 32 (log entry 6). -/
opaque nmaxSlack : Fin 65504

/-- NMAX, the largest legal WIDTH: any integer with 32 ≤ NMAX ≤ 65535 (R8, D7). Nothing else is known of it. -/
def nmax : Nat := nmaxSlack.val + 32

/-- Whether the length of an input list is bounded at all (R8, D11; log entry 7). -/
opaque lmaxBounded : Bool

/-- LMAX less 1, where it is bounded (R8, D11; log entry 7). -/
opaque lmaxBelow : Nat

/-- LMAX, the largest length of an input list: any integer ≥ 1, or unbounded (`none`) (R8, D11). -/
def lmax : Option Nat := if lmaxBounded then some (lmaxBelow + 1) else none

/-- The number of requesters less 1 (log entry 8). -/
opaque moreRequesters : Nat

/-- K, the number of requesters: any integer ≥ 1 (R8, D2). -/
def requesters : Nat := moreRequesters + 1

/-- FREE VALUE: the binary64 NaN that FDEC returns at the model's `draw`-th response (43_ieee754.md R189, D21, I1;
log entry 3). -/
opaque nanDraw : Nat → NaN64

/-- FREE VALUE: which requester the block serves next, where several wait (10_state.md R32, I17; log entry 3). -/
opaque serviceChoice : Nat → Nat

/-- FREE VALUE: the NaN that the assembler's literal `nan` stands for (30_encoding.md R76; log entry 15). -/
opaque assemblerNaN : NaN64

/-- FREE VALUE: whether a decimal literal `num / den` half way between two binary64 values is taken up (R76 says
"nearest" only; log entry 15). -/
opaque assemblerTieUp : Nat → Nat → Bool

end Config

end Sys2Proof
end

