-- ==== Sys2Proof/Syntax.lean ====
section
/-! DEFINITION. The twelve operations (30_encoding.md R61), one constructor each, with the command fields the operation
reads (R67). -/

namespace Sys2Proof

/-- A command: an operation of R61 with the fields it reads. `n` is WIDTH, `le` and `ll` are the flags LE and LL,
`dp` is DP. -/
inductive Instr where
  /-- BITS: integer to its low `n` bits (40_bit_vector.md R100). -/
  | bits (n : BitVec 16)
  /-- BPACK: `n` bits to their integer (40_bit_vector.md R101). -/
  | bpack (n : BitVec 16)
  /-- TCS: unsigned to signed at width `n` (41_twos_complement.md R121). -/
  | tcs (n : BitVec 16)
  /-- TCU: signed to unsigned at width `n` (41_twos_complement.md R122). -/
  | tcu (n : BitVec 16)
  /-- TC: to the other reading at width `n` (41_twos_complement.md R123). -/
  | tc (n : BitVec 16)
  /-- TCSL: list form of TCS (41_twos_complement.md R125). -/
  | tcsl (n : BitVec 16)
  /-- TCUL: list form of TCU (41_twos_complement.md R126). -/
  | tcul (n : BitVec 16)
  /-- TCL: list form of TC (41_twos_complement.md R127). -/
  | tcl (n : BitVec 16)
  /-- W2L: words to longs or long-longs (42_word_aggregator.md R152). -/
  | w2l (le ll : Bool)
  /-- L2W: longs or long-longs to words (42_word_aggregator.md R153). -/
  | l2w (le ll : Bool)
  /-- FDEC: bit pattern to floating-point value (43_ieee754.md R189). -/
  | fdec (dp : Bool)
  /-- FENC: floating-point value to bit pattern (43_ieee754.md R190). -/
  | fenc (dp : Bool)
deriving DecidableEq, Repr

end Sys2Proof
end

