-- ==== Sys2Proof/WellFormed.lean ====
section
/-! DEFINITION. Which instructions a legal command word can name: the width-taking operations ask for 1 ≤ n ≤ NMAX, the
others for nothing (30_encoding.md R67, R68). -/

namespace Sys2Proof

/-- A width a width-taking operation accepts: 1 ≤ n ≤ NMAX (R68). -/
def legalWidth (n : BitVec 16) : Bool :=
  decide (1 ≤ n.toNat) && decide (n.toNat ≤ Config.nmax)

/-- The check every legal command passes (R67, R68). -/
def Instr.wf : Instr → Bool
  | .bits n => legalWidth n
  | .bpack n => legalWidth n
  | .tcs n => legalWidth n
  | .tcu n => legalWidth n
  | .tc n => legalWidth n
  | .tcsl n => legalWidth n
  | .tcul n => legalWidth n
  | .tcl n => legalWidth n
  | .w2l _ _ => true
  | .l2w _ _ => true
  | .fdec _ => true
  | .fenc _ => true

/-- A well-formed instruction. -/
abbrev Instr.WellFormed (i : Instr) : Prop := i.wf = true

end Sys2Proof
end

