-- ==== Sys2Proof/Decode.lean ====
section
/-! DEFINITION. The command word: its fields (30_encoding.md R60), the decoder, total on all 2^32 words (R68), and the
encoder, written from the same layout (R60, R61). -/

namespace Sys2Proof

/-- Why a command word is illegal (R68, R222). Every reason has the same effect, `ILLEGAL_COMMAND`. -/
inductive Illegal where
  /-- RSV is not 0 (R65). -/
  | reservedBits
  /-- A field the operation does not read is not 0 (R67). -/
  | unreadField
  /-- WIDTH is 0 or above NMAX (R68). -/
  | widthOutOfRange
  /-- OPC is 0xC to 0xF (R69). -/
  | reservedOpcode
deriving DecidableEq, Repr

/-- What a command word decodes to (R68, R71). -/
inductive Decoded where
  /-- ILLEGAL, with the first reason in the order of R68. -/
  | illegal (why : Illegal)
  /-- One operation of R61 with the fields it reads. -/
  | op (i : Instr)
deriving DecidableEq, Repr

/-- The fields of CMD32 (R60). -/
structure Fields where
  width : BitVec 16
  rsv : BitVec 9
  dp : Bool
  ll : Bool
  le : Bool
  opc : BitVec 4
deriving DecidableEq, Repr

/-- Bits 31:16 WIDTH, 15:7 RSV, 6 DP, 5 LL, 4 LE, 3:0 OPC (R60, R62 to R66). -/
def fieldsOf (cmd : Command) : Fields where
  width := cmd.extractLsb' 16 16
  rsv := cmd.extractLsb' 7 9
  dp := cmd.getLsbD 6
  ll := cmd.getLsbD 5
  le := cmd.getLsbD 4
  opc := cmd.extractLsb' 0 4

/-- A width-taking operation: LE, LL and DP must be 0 and 1 ≤ n ≤ NMAX (R68). -/
def decodeWidthOp (op : BitVec 16 → Instr) (f : Fields) : Decoded :=
  if f.le || f.ll || f.dp then .illegal .unreadField
  else if legalWidth f.width then .op (op f.width)
  else .illegal .widthOutOfRange

/-- A word aggregator operation: DP and WIDTH must be 0 (R68). -/
def decodeOrderOp (op : Bool → Bool → Instr) (f : Fields) : Decoded :=
  if f.dp || f.width != 0 then .illegal .unreadField else .op (op f.le f.ll)

/-- An IEEE-754 codec operation: LE, LL and WIDTH must be 0 (R68). -/
def decodePrecisionOp (op : Bool → Instr) (f : Fields) : Decoded :=
  if f.le || f.ll || f.width != 0 then .illegal .unreadField else .op (op f.dp)

/-- The operation OPC selects (R61), once RSV has been found 0. -/
def decodeFields (f : Fields) : Decoded :=
  match f.opc.toNat with
  | 0x0 => decodeWidthOp .bits f
  | 0x1 => decodeWidthOp .bpack f
  | 0x2 => decodeWidthOp .tcs f
  | 0x3 => decodeWidthOp .tcu f
  | 0x4 => decodeWidthOp .tc f
  | 0x5 => decodeWidthOp .tcsl f
  | 0x6 => decodeWidthOp .tcul f
  | 0x7 => decodeWidthOp .tcl f
  | 0x8 => decodeOrderOp .w2l f
  | 0x9 => decodeOrderOp .l2w f
  | 0xA => decodePrecisionOp .fdec f
  | 0xB => decodePrecisionOp .fenc f
  | _ => .illegal .reservedOpcode

/-- The decoder of R68. -/
def decode (cmd : Command) : Decoded :=
  if (fieldsOf cmd).rsv != 0 then .illegal .reservedBits else decodeFields (fieldsOf cmd)

/-- The instruction a legal word names, none for an illegal word. -/
def Decoded.instr? : Decoded → Option Instr
  | .illegal _ => none
  | .op i => some i

/-- The 32 bits of CMD32, written MSB first `WWWWWWWWWWWWWWWW 000000000 D L E OOOO` (R60). -/
def layout (width : BitVec 16) (dp ll le : Bool) (opc : BitVec 4) : Command :=
  width ++ (0#9) ++ BitVec.ofBool dp ++ BitVec.ofBool ll ++ BitVec.ofBool le ++ opc

/-- The command word of an instruction; a field the operation does not read is 0 (R60, R61, R67). -/
def encode : Instr → Command
  | .bits n => layout n false false false 0x0
  | .bpack n => layout n false false false 0x1
  | .tcs n => layout n false false false 0x2
  | .tcu n => layout n false false false 0x3
  | .tc n => layout n false false false 0x4
  | .tcsl n => layout n false false false 0x5
  | .tcul n => layout n false false false 0x6
  | .tcl n => layout n false false false 0x7
  | .w2l le ll => layout 0 false ll le 0x8
  | .l2w le ll => layout 0 false ll le 0x9
  | .fdec dp => layout 0 dp false false 0xA
  | .fenc dp => layout 0 dp false false 0xB

/-- The instruction this decoder reads from a word whose low `nbits` bits are those of `w` and whose other bits are 0.
A command reaches the block as one 32-bit value, so no byte order applies (20_memory.md R43). -/
def decodeTableWord (nbits w : Nat) : Option Instr :=
  (decode (BitVec.ofNat 32 (w % 2 ^ nbits))).instr?

end Sys2Proof
end

