-- ==== Sys2Proof/Machine/State.lean ====
section
/-! DEFINITION. The interface of 10_state.md R28 and R29 as plain data, and the state of the transaction system: the
block itself holds none (R20), so State holds the requests in flight, the responses delivered, the requests reset
abandoned, what the agents will do next, and the counter the free values are read at. -/

namespace Sys2Proof.Machine

/-- A payload, of exactly one of eight kinds (R28). -/
inductive Payload where
  /-- unsigned integer scalar -/
  | pNat (v : Nat)
  /-- signed integer scalar -/
  | pInt (v : Int)
  /-- list of signed integers -/
  | pInts (l : List Int)
  /-- bit vector, element 0 is bit 0 -/
  | pBools (l : List Bool)
  /-- list of words -/
  | pWords (l : List Word)
  /-- list of longs or long-longs, one per 64-bit lane -/
  | pLongs (l : List Long)
  /-- an IEEE-754 bit pattern -/
  | pPat (p : BitVec 64)
  /-- a floating-point value, binary64 -/
  | pF64 (f : F64)
deriving DecidableEq, Repr

/-- The status of a response (R29, R220). -/
inductive Status where
  | ok
  | rangeError
  | illegalCommand
  | shapeError
deriving DecidableEq, Repr

/-- A request: who issued it, the command word and the operand payload (R28). -/
structure Req where
  rq : Nat
  cmd : Command
  arg : Payload
deriving DecidableEq, Repr

/-- A response (R29). -/
structure Resp where
  status : Status
  index : Nat
  result : Option Payload
deriving DecidableEq, Repr

/-- A response delivered to the requester of the request it answers (R32). -/
structure Delivery where
  req : Req
  resp : Resp
deriving DecidableEq, Repr

/-- One turn of an agent (R31, R251). -/
inductive Turn where
  /-- a requester issues a request -/
  | issue (q : Req)
  /-- the block serves one issued request -/
  | serve
  /-- reset is asserted -/
  | reset
deriving DecidableEq, Repr

/-- The transaction system. -/
structure State where
  /-- the turns the agents will still take, next first; when none is left the block serves (log entry 2) -/
  schedule : List Turn
  /-- the requests issued and not yet answered, in issue order (R32, R251) -/
  inFlight : List Req
  /-- the responses delivered, oldest first, each beside the request it answers (R29, R32) -/
  delivered : List Delivery
  /-- the requests that reset abandoned: issued, and never to receive a response, oldest first (R33, R251; log entry 18) -/
  abandoned : List Req
  /-- the model's own counter, at which the free values are read (log entry 4) -/
  draws : Nat
deriving DecidableEq, Repr

/-- The block has no fault: an error is a response, not a trap (60_exceptions.md R227). The type is empty, so no step
can fault; that is exact, neither safe nor unsafe. -/
inductive Fault where
deriving DecidableEq, Repr

/-- Why a step is refused. -/
inductive Refusal where
  /-- Raised by `exec` for an instruction without a meaning. No arm raises it: every operation has its meaning. Safe. -/
  | notModelled (mnemonic : String)
  /-- Raised by `step` at an issue turn whose requester number is not below K: such a request cannot be presented
  (R8, R28). No instruction raises it. Safe: the model stops where no hardware run exists (log entry 8). -/
  | noSuchRequester
deriving DecidableEq, Repr

/-- Right after reset: no request in flight (70_reset_and_hazards.md R251), none of the block's state to set (R250),
nothing answered or abandoned yet and nothing scheduled (log entries 2, 4, 5, 18). -/
def State.reset : State where
  schedule := []
  inFlight := []
  delivered := []
  abandoned := []
  draws := 0

end Sys2Proof.Machine
end

