-- ==== Sys2Proof/Machine/Flags.lean ====
section
/-! DEFINITION. The block has no flags (10_state.md R23, 43_ieee754.md R192). What a transaction reports instead is its
status, index and result: the status codes (60_exceptions.md R220) and the response primitives (00_scope.md R14). -/

namespace Sys2Proof.Machine

/-- The 2-bit code of a status (R220). -/
def statusCode : Status → BitVec 2
  | .ok => 0
  | .rangeError => 1
  | .illegalCommand => 2
  | .shapeError => 3

/-- `return r` (R14). -/
def respOk (r : Payload) : Resp := ⟨.ok, 0, some r⟩

/-- `raise RangeError(i)` (R14, R226). -/
def respRange (i : Nat) : Resp := ⟨.rangeError, i, none⟩

/-- `raise IllegalCommand` (R14, R222). -/
def respIllegal : Resp := ⟨.illegalCommand, 0, none⟩

/-- `raise ShapeError` (R14, R223). -/
def respShape : Resp := ⟨.shapeError, 0, none⟩

/-- The response to an operand fetch that failed its kind or length check, else what the operation answers (R74). -/
def respArg {α : Type} (arg : Option α) (op : α → Resp) : Resp :=
  match arg with
  | none => respShape
  | some a => op a

/-- The response of a conversion that yields a value or leaves its domain (R14, R226: index 0). -/
def respDomain {α : Type} (wrap : α → Payload) (r : Option α) : Resp :=
  match r with
  | none => respRange 0
  | some a => respOk (wrap a)

/-- The response of a list conversion: the list, or the position of its first failing element (R124, R226). -/
def respList {α : Type} (wrap : List α → Payload) (r : Except Nat (List α)) : Resp :=
  match r with
  | .error i => respRange i
  | .ok l => respOk (wrap l)

end Sys2Proof.Machine
end

