-- ==== Sys2Proof/Machine/Operands.lean ====
section
/-! DEFINITION. The operand kinds of 30_encoding.md R70, the kind and length checks of R74, and how an operation takes
its operand from the payload. -/

namespace Sys2Proof.Machine

/-- The kinds of payload (10_state.md R28). -/
inductive Kind where
  | nat | int | ints | bools | words | longs | pat | f64
deriving DecidableEq, Repr

/-- `kind(arg)` (R74). -/
def payloadKind : Payload → Kind
  | .pNat _ => .nat
  | .pInt _ => .int
  | .pInts _ => .ints
  | .pBools _ => .bools
  | .pWords _ => .words
  | .pLongs _ => .longs
  | .pPat _ => .pat
  | .pF64 _ => .f64

/-- The kind an operation takes (R70). -/
def argKind : Instr → Kind
  | .bits _ => .nat
  | .bpack _ => .bools
  | .tcs _ => .int
  | .tcu _ => .int
  | .tc _ => .int
  | .tcsl _ => .ints
  | .tcul _ => .ints
  | .tcl _ => .ints
  | .w2l _ _ => .words
  | .l2w _ _ => .longs
  | .fdec _ => .pat
  | .fenc _ => .f64

/-- The kind an operation returns (R70). -/
def resultKind : Instr → Kind
  | .bits _ => .bools
  | .bpack _ => .nat
  | .tcs _ => .int
  | .tcu _ => .int
  | .tc _ => .int
  | .tcsl _ => .ints
  | .tcul _ => .ints
  | .tcl _ => .ints
  | .w2l _ _ => .longs
  | .l2w _ _ => .words
  | .fdec _ => .f64
  | .fenc _ => .pat

/-- `len > LMAX`, never where LMAX is unbounded (R74, D11). -/
def tooLong (len : Nat) : Bool := decide (Config.lmaxBelow + 1 < len) && Config.lmaxBounded

/-- `arg is PBools, PInts, PWords or PLongs and len(arg) > LMAX` (R74). -/
def payloadTooLong : Payload → Bool
  | .pNat _ => false
  | .pInt _ => false
  | .pInts l => tooLong l.length
  | .pBools l => tooLong l.length
  | .pWords l => tooLong l.length
  | .pLongs l => tooLong l.length
  | .pPat _ => false
  | .pF64 _ => false

/-- A list operand, none where it is longer than LMAX. -/
def boundedList {α : Type} (l : List α) : Option (List α) :=
  if tooLong l.length then none else some l

/-- The operand of BITS; none is a SHAPE_ERROR (R223), here and below. -/
def natArg : Payload → Option Nat
  | .pNat v => some v
  | _ => none

/-- The operand of TCS, TCU and TC. -/
def intArg : Payload → Option Int
  | .pInt v => some v
  | _ => none

/-- The operand of TCSL, TCUL and TCL. -/
def intsArg : Payload → Option (List Int)
  | .pInts l => boundedList l
  | _ => none

/-- The operand of BPACK. -/
def boolsArg : Payload → Option (List Bool)
  | .pBools l => boundedList l
  | _ => none

/-- The operand of W2L. -/
def wordsArg : Payload → Option (List Word)
  | .pWords l => boundedList l
  | _ => none

/-- The operand of L2W. -/
def longsArg : Payload → Option (List Long)
  | .pLongs l => boundedList l
  | _ => none

/-- The operand of FDEC. -/
def patArg : Payload → Option (BitVec 64)
  | .pPat p => some p
  | _ => none

/-- The operand of FENC. -/
def f64Arg : Payload → Option F64
  | .pF64 f => some f
  | _ => none

/-- A zero payload of the kind an operation takes: what `State.withFetchWord` puts beside a command word. BPACK's has
the length its width asks for (log entry 13). -/
def sampleArg : Instr → Payload
  | .bits _ => .pNat 0
  | .bpack n => .pBools (List.replicate n.toNat false)
  | .tcs _ => .pInt 0
  | .tcu _ => .pInt 0
  | .tc _ => .pInt 0
  | .tcsl _ => .pInts []
  | .tcul _ => .pInts []
  | .tcl _ => .pInts []
  | .w2l _ _ => .pWords []
  | .l2w _ _ => .pLongs []
  | .fdec _ => .pPat 0
  | .fenc _ => .pF64 0

end Sys2Proof.Machine
end

