-- ==== Sys2Proof/Machine/Ops.lean ====
section
/-! DEFINITION. The named operations on the transaction system: which request is served next (10_state.md R32), giving a
response (R29, R30, R47; an error response is no trap, 60_exceptions.md R227), issuing a request (R31) and reset
(70_reset_and_hazards.md R251). -/

namespace Sys2Proof.Machine

/-- The oldest request of each requester, in issue order: the requests the block may serve next (R32). -/
def oldestEach : List Req → List Req
  | [] => []
  | q :: rest => q :: (oldestEach rest).filter (fun p => p.rq != q.rq)

/-- One of the candidates: the only one, or the one the free choice `c` names (R32, I17). -/
def pickOne (c : Nat) : List Req → Option Req
  | [] => none
  | [q] => some q
  | q :: r :: rest => (q :: r :: rest)[c % (rest.length + 2)]?

/-- The request the block serves next: the oldest of some requester (R32); none where none is in flight. -/
def State.selected (s : State) : Option Req :=
  pickOne (Config.serviceChoice s.draws) (oldestEach s.inFlight)

/-- The requests in flight without the oldest of requester `rq`. -/
def removeOldest (rq : Nat) (l : List Req) : List Req := l.eraseP (fun p => p.rq == rq)

/-- Request `q` receives response `r`: it leaves the requests in flight and the response is delivered to its requester
(R30, R32). Nothing else changes but the counter the free values are read at. -/
def State.answer (s : State) (q : Req) (r : Resp) : State :=
  { s with
    inFlight := removeOldest q.rq s.inFlight
    delivered := s.delivered ++ [⟨q, r⟩]
    draws := s.draws + 1 }

/-- The transaction step of R30 for an operation `op`: the request served is answered with what `op` makes of its
payload. With no request in flight there is nothing to answer and nothing changes (log entry 9). -/
def State.respond (s : State) (op : Payload → Resp) : Host.Outcome State Fault Refusal :=
  match s.selected with
  | none => .next s
  | some q => .next (s.answer q (op q.arg))

/-- The next turn of the schedule is taken. -/
def State.popTurn (s : State) : State := { s with schedule := s.schedule.tail }

/-- A requester issues `q` (R31). One of the K requesters must issue it; no other can be presented (R28). -/
def State.issue (s : State) (q : Req) : Host.Outcome State Fault Refusal :=
  if q.rq < Config.requesters then .next { s with inFlight := s.inFlight ++ [q] }
  else .refused .noSuchRequester

/-- Reset: every request in flight is abandoned without a response; the block has no state to set (R250, R251). Which
requests were abandoned stays on record, because they are issued requests without a response (R33). -/
def State.resetTurn (s : State) : State :=
  { s with inFlight := [], abandoned := s.abandoned ++ s.inFlight }

/-- The issued requests that have received no response: those reset abandoned, and those in flight (R33). -/
def State.unanswered (s : State) : List Req := s.abandoned ++ s.inFlight

/-- `cmd` with a payload of the right kind is the one request in flight, issued by requester 0, and the block has the
next turn (log entry 13). -/
def State.placeCommand (s : State) (cmd : Command) : State :=
  { s with
    schedule := []
    inFlight := [⟨0, cmd, match decode cmd with
      | .illegal _ => .pNat 0
      | .op i => sampleArg i⟩] }

end Sys2Proof.Machine
end

