-- ==== Sys2Proof/Machine/BitVector.lean ====
section
/-! DEFINITION. The Bit Vector Codec: BITS and BPACK (40_bit_vector.md). -/

namespace Sys2Proof.Machine

/-- `v[i] = (v div 2^i) mod 2`, as a Bool (00_scope.md R9). -/
def bitAt (v i : Nat) : Bool := decide (v / 2 ^ i % 2 = 1)

/-- The list of the low `n` bits of `v`, element `i` being bit `i` (R100). -/
def bitsFromInt (n v : Nat) : List Bool := (List.range n).map (bitAt v)

/-- The sum of `2^i` over the elements that are true, the first of them at position `i` (R101). -/
def packFrom (i : Nat) : List Bool → Nat
  | [] => 0
  | b :: bs => (if b then 2 ^ i else 0) + packFrom (i + 1) bs

/-- The integer whose bits the list spells, element 0 being bit 0 (R101). -/
def intFromBits (b : List Bool) : Nat := packFrom 0 b

/-- BITS (R100). -/
def respBits (n : Nat) (arg : Payload) : Resp :=
  respArg (natArg arg) fun v => respOk (.pBools (bitsFromInt n v))

/-- BPACK: a list of another length than `n` is a SHAPE_ERROR (R101). -/
def respBpack (n : Nat) (arg : Payload) : Resp :=
  respArg (boolsArg arg) fun b =>
    if b.length ≠ n then respShape else respOk (.pNat (intFromBits b))

/-- BITS (R100). -/
def execBits (n : BitVec 16) (s : State) : Host.Outcome State Fault Refusal :=
  s.respond (respBits n.toNat)

/-- BPACK (R101). -/
def execBpack (n : BitVec 16) (s : State) : Host.Outcome State Fault Refusal :=
  s.respond (respBpack n.toNat)

end Sys2Proof.Machine
end

