-- ==== Sys2Proof/Machine/Ieee754.lean ====
section
/-! DEFINITION. The IEEE-754 Codec: FDEC and FENC (43_ieee754.md). Magnitudes are exact: every finite binary64 value is a
whole number of units of 2^-1074, and so is every finite binary32 value, so the exact rationals of R182, R183 and R188
are natural numbers of such units (log entry 10). -/

namespace Sys2Proof.Machine

/-- Sign `q[31]` of a binary32 pattern (R180). -/
def sign32 (q : BitVec 32) : Bool := q.getLsbD 31

/-- Biased exponent `q[30:23]` of a binary32 pattern (R180). -/
def exponent32 (q : BitVec 32) : Nat := (q.extractLsb' 23 8).toNat

/-- Fraction `q[22:0]` of a binary32 pattern (R180). -/
def fraction32 (q : BitVec 32) : Nat := (q.extractLsb' 0 23).toNat

/-- Sign `p[63]` of a binary64 pattern (R181). -/
def sign64 (p : BitVec 64) : Bool := p.getLsbD 63

/-- Biased exponent `p[62:52]` of a binary64 pattern (R181). -/
def exponent64 (p : BitVec 64) : Nat := (p.extractLsb' 52 11).toNat

/-- Fraction `p[51:0]` of a binary64 pattern (R181). -/
def fraction64 (p : BitVec 64) : Nat := (p.extractLsb' 0 52).toNat

/-- The binary32 pattern with these fields (R180). -/
def pack32 (s : Bool) (e f : Nat) : BitVec 32 := BitVec.ofBool s ++ BitVec.ofNat 8 e ++ BitVec.ofNat 23 f

/-- The binary64 pattern with these fields (R181). -/
def pack64 (s : Bool) (e f : Nat) : BitVec 64 := BitVec.ofBool s ++ BitVec.ofNat 11 e ++ BitVec.ofNat 52 f

/-- The NaN test at single precision (R185). -/
def isNaN32 (q : BitVec 32) : Bool := exponent32 q == 0xFF && fraction32 q != 0

/-- The NaN test at double precision (R185). -/
def isNaN64 (p : BitVec 64) : Bool := exponent64 p == 0x7FF && fraction64 p != 0

/-- CQNAN32 (R184). -/
def cqnan32 : BitVec 32 := 0x7FC00000

/-- CQNAN64 (R184). -/
def cqnan64 : BitVec 64 := 0x7FF8000000000000

/-- The 64 bits of a binary64 NaN (R185). -/
def nanBits (x : NaN64) : F64 := pack64 x.negative 0x7FF (x.fractionBelow.val + 1)

/-- A floating-point value: NaN, a signed infinity, or a signed finite magnitude in units of 2^-1074, so that the two
zeros are `finite false 0` and `finite true 0` (R182, R183). -/
inductive FloatValue where
  | nan
  | infinity (negative : Bool)
  | finite (negative : Bool) (units : Nat)
deriving DecidableEq, Repr

/-- The magnitude of a finite binary32 pattern, in units of 2^-1074: `F · 2^-149` or `(2^23 + F) · 2^(E-150)` (R182). -/
def units32 (q : BitVec 32) : Nat :=
  if exponent32 q = 0 then fraction32 q * 2 ^ 925
  else (2 ^ 23 + fraction32 q) * 2 ^ (exponent32 q + 924)

/-- The magnitude of a finite binary64 datum, in units of 2^-1074: `F · 2^-1074` or `(2^52 + F) · 2^(E-1075)` (R183). -/
def units64 (p : BitVec 64) : Nat :=
  if exponent64 p = 0 then fraction64 p
  else (2 ^ 52 + fraction64 p) * 2 ^ (exponent64 p - 1)

/-- `value32` (R182). -/
def value32 (q : BitVec 32) : FloatValue :=
  if exponent32 q = 0xFF then
    if fraction32 q ≠ 0 then .nan else .infinity (sign32 q)
  else .finite (sign32 q) (units32 q)

/-- `value64` (R183). -/
def value64 (p : BitVec 64) : FloatValue :=
  if exponent64 p = 0x7FF then
    if fraction64 p ≠ 0 then .nan else .infinity (sign64 p)
  else .finite (sign64 p) (units64 p)

/-- Widening of a pattern that is not a NaN (R187). -/
def widen32 (q : BitVec 32) : F64 :=
  let s := sign32 q
  let e := exponent32 q
  let f := fraction32 q
  if e = 0xFF then pack64 s 0x7FF 0
  else if e = 0 ∧ f = 0 then pack64 s 0 0
  else if e = 0 then
    let h := Nat.log2 f
    pack64 s (h + 874) ((f - 2 ^ h) * 2 ^ (52 - h))
  else pack64 s (e + 896) (f * 2 ^ 29)

/-- The integer nearest to `a / u`, a tie going to the even integer (R188). -/
def roundHalfEven (a u : Nat) : Nat :=
  let q := a / u
  let r := a % u
  if 2 * r < u then q
  else if u < 2 * r then q + 1
  else if q % 2 = 0 then q else q + 1

/-- The binary32 spacing at magnitude `a`, both in units of 2^-1074: `2^(max(e, -126) - 23)` with `e = floor(log2 a)`,
that is `e + 1074 = log2` of the units (R188). -/
def spacing32 (a : Nat) : Nat := 2 ^ (max (Nat.log2 a) 948 - 23)

/-- The magnitude `r` of R188 in units of 2^-1074: `a` rounded to a multiple of the spacing. -/
def rounded32 (a : Nat) : Nat := roundHalfEven a (spacing32 a) * spacing32 a

/-- The binary32 pattern of sign `s` and magnitude `r` units of 2^-1074, `r` being a multiple of its spacing: infinity
from 2^128 on, zero, a subnormal below 2^-126, else a normal pattern (R188). -/
def encode32 (s : Bool) (r : Nat) : BitVec 32 :=
  if 2 ^ 1202 ≤ r then pack32 s 0xFF 0
  else if r = 0 then pack32 s 0 0
  else if r < 2 ^ 948 then pack32 s 0 (r / 2 ^ 925)
  else pack32 s (Nat.log2 r - 947) (r / 2 ^ (Nat.log2 r - 23) - 2 ^ 23)

/-- Narrowing of a datum that is not a NaN, to nearest with ties to even (R188). -/
def narrow64 (f : F64) : BitVec 32 :=
  if exponent64 f = 0x7FF then pack32 (sign64 f) 0xFF 0
  else if units64 f = 0 then pack32 (sign64 f) 0 0
  else encode32 (sign64 f) (rounded32 (units64 f))

/-- FDEC on a pattern: none is a RangeError; a NaN pattern gives the NaN drawn (R189). -/
def decodeFloat (dp : Bool) (nan : NaN64) (p : BitVec 64) : Option F64 :=
  if dp then
    if isNaN64 p then some (nanBits nan) else some p
  else if p.extractLsb' 32 32 != 0 then none
  else if isNaN32 (p.setWidth 32) then some (nanBits nan)
  else some (widen32 (p.setWidth 32))

/-- FENC on a datum (R190). -/
def encodeFloat (dp : Bool) (f : F64) : BitVec 64 :=
  if isNaN64 f then
    if dp then cqnan64 else cqnan32.setWidth 64
  else if dp then f
  else (narrow64 f).setWidth 64

/-- FDEC (R189). -/
def respFdec (dp : Bool) (nan : NaN64) (arg : Payload) : Resp :=
  respArg (patArg arg) fun p => respDomain .pF64 (decodeFloat dp nan p)

/-- FENC (R190). -/
def respFenc (dp : Bool) (arg : Payload) : Resp :=
  respArg (f64Arg arg) fun f => respOk (.pPat (encodeFloat dp f))

/-- FDEC (R189). The NaN drawn is the free value at the state's counter. -/
def execFdec (dp : Bool) (s : State) : Host.Outcome State Fault Refusal :=
  s.respond (respFdec dp (Config.nanDraw s.draws))

/-- FENC (R190). -/
def execFenc (dp : Bool) (s : State) : Host.Outcome State Fault Refusal :=
  s.respond (respFenc dp)

end Sys2Proof.Machine
end

