-- ==== Sys2Proof/Machine/TwosComplement.lean ====
section
/-! DEFINITION. The Two's-Complement Codec: TCS, TCU, TC and their list forms (41_twos_complement.md). All arithmetic is
exact over the integers (00_scope.md R11, R128). -/

namespace Sys2Proof.Machine

/-- `2^n` as an integer (R11). -/
def twoPow (n : Nat) : Int := ((2 ^ n : Nat) : Int)

/-- `v ∈ U(n) = [0, 2^n - 1]` (R120). -/
def inUnsigned (n : Nat) (v : Int) : Bool := decide (0 ≤ v) && decide (v ≤ twoPow n - 1)

/-- `v ∈ S(n) = [-2^(n-1), 2^(n-1) - 1]` (R120). -/
def inSigned (n : Nat) (v : Int) : Bool :=
  decide (-twoPow (n - 1) ≤ v) && decide (v ≤ twoPow (n - 1) - 1)

/-- TCS on one integer; none is a RangeError (R121). -/
def toSigned (n : Nat) (v : Int) : Option Int :=
  if inUnsigned n v then
    if twoPow (n - 1) ≤ v then some (v - twoPow n) else some v
  else none

/-- TCU on one integer; none is a RangeError (R122). -/
def toUnsigned (n : Nat) (v : Int) : Option Int :=
  if inSigned n v then
    if v < 0 then some (v + twoPow n) else some v
  else none

/-- TC on one integer: a negative input is a signed representation (R123). -/
def toOther (n : Nat) (v : Int) : Option Int :=
  if v < 0 then toUnsigned n v else toSigned n v

/-- ListMap of R124 from position `i` on: the converted list, or the position of the first failing element. -/
def listMapFrom (f : Int → Option Int) (i : Nat) : List Int → Except Nat (List Int)
  | [] => .ok []
  | v :: rest =>
    match f v with
    | none => .error i
    | some r =>
      match listMapFrom f (i + 1) rest with
      | .error j => .error j
      | .ok out => .ok (r :: out)

/-- A scalar conversion (R121 to R123). -/
def respScalar (f : Int → Option Int) (arg : Payload) : Resp :=
  respArg (intArg arg) fun v => respDomain .pInt (f v)

/-- The list form of a scalar conversion (R124). -/
def respListForm (f : Int → Option Int) (arg : Payload) : Resp :=
  respArg (intsArg arg) fun l => respList .pInts (listMapFrom f 0 l)

/-- TCS (R121). -/
def execTcs (n : BitVec 16) (s : State) : Host.Outcome State Fault Refusal :=
  s.respond (respScalar (toSigned n.toNat))

/-- TCU (R122). -/
def execTcu (n : BitVec 16) (s : State) : Host.Outcome State Fault Refusal :=
  s.respond (respScalar (toUnsigned n.toNat))

/-- TC (R123). -/
def execTc (n : BitVec 16) (s : State) : Host.Outcome State Fault Refusal :=
  s.respond (respScalar (toOther n.toNat))

/-- TCSL (R125). -/
def execTcsl (n : BitVec 16) (s : State) : Host.Outcome State Fault Refusal :=
  s.respond (respListForm (toSigned n.toNat))

/-- TCUL (R126). -/
def execTcul (n : BitVec 16) (s : State) : Host.Outcome State Fault Refusal :=
  s.respond (respListForm (toUnsigned n.toNat))

/-- TCL (R127). -/
def execTcl (n : BitVec 16) (s : State) : Host.Outcome State Fault Refusal :=
  s.respond (respListForm (toOther n.toNat))

end Sys2Proof.Machine
end

