-- ==== Sys2Proof/Machine/WordAggregator.lean ====
section
/-! DEFINITION. The Word Aggregator: W2L and L2W, with the endianness multiplexer (42_word_aggregator.md). -/

namespace Sys2Proof.Machine

/-- The chunk size: 2 words in long mode, 4 in long-long mode (R150). -/
def chunkSize (ll : Bool) : Nat := if ll then 4 else 2

/-- The bit offset of word `t` of a chunk of `k` words (R151, R153). -/
def wordOffset (le : Bool) (k t : Nat) : Nat := if le then 16 * t else 16 * (k - 1 - t)

/-- The weight of word `t` of a chunk of `k` words (R151). -/
def weight (le : Bool) (k t : Nat) : Nat := 2 ^ wordOffset le k t

/-- The sum of the words of a chunk, each by its weight, the first of them being word `t` (R152). -/
def weightedSum (le : Bool) (k t : Nat) : List Word → Nat
  | [] => 0
  | w :: ws => w.toNat * weight le k t + weightedSum le k (t + 1) ws

/-- The first `m` chunks of `k` words; what lies after them is dropped (R152, 20_memory.md R45). -/
def chunks (k : Nat) : Nat → List Word → List (List Word)
  | 0, _ => []
  | m + 1, ws => ws.take k :: chunks k m (ws.drop k)

/-- W2L on a word list (R152). -/
def wordsToLongs (le ll : Bool) (ws : List Word) : List Long :=
  (chunks (chunkSize ll) (ws.length / chunkSize ll) ws).map fun c =>
    BitVec.ofNat 64 (weightedSum le (chunkSize ll) 0 c)

/-- The words of one long or long-long, `x[s+15 : s]` for each word's offset `s` (R153). -/
def splitLong (le ll : Bool) (x : Long) : List Word :=
  (List.range (chunkSize ll)).map fun t => x.extractLsb' (wordOffset le (chunkSize ll) t) 16

/-- "a long must be below 2^32": in long mode bits 63:32 must be 0 (R153, D16). -/
def longInRange (ll : Bool) (x : Long) : Bool := ll || x.extractLsb' 32 32 == 0

/-- L2W from position `j` on: the words, or the position of the first element out of range (R153). -/
def longsToWordsFrom (le ll : Bool) (j : Nat) : List Long → Except Nat (List Word)
  | [] => .ok []
  | x :: rest =>
    if longInRange ll x then
      match longsToWordsFrom le ll (j + 1) rest with
      | .error i => .error i
      | .ok out => .ok (splitLong le ll x ++ out)
    else .error j

/-- W2L (R152). -/
def respW2l (le ll : Bool) (arg : Payload) : Resp :=
  respArg (wordsArg arg) fun ws => respOk (.pLongs (wordsToLongs le ll ws))

/-- L2W (R153). -/
def respL2w (le ll : Bool) (arg : Payload) : Resp :=
  respArg (longsArg arg) fun xs => respList .pWords (longsToWordsFrom le ll 0 xs)

/-- W2L (R152). -/
def execW2l (le ll : Bool) (s : State) : Host.Outcome State Fault Refusal :=
  s.respond (respW2l le ll)

/-- L2W (R153). -/
def execL2w (le ll : Bool) (s : State) : Host.Outcome State Fault Refusal :=
  s.respond (respL2w le ll)

end Sys2Proof.Machine
end

