-- ==== Sys2Proof/Machine/Dispatch.lean ====
section
/-! DEFINITION. exec: one arm per operation (30_encoding.md R74). -/

namespace Sys2Proof.Machine

def exec (i : Instr) (s : State) : Host.Outcome State Fault Refusal :=
  match i with
  | .bits n => Sys2Proof.Machine.execBits n s
  | .bpack n => Sys2Proof.Machine.execBpack n s
  | .tcs n => Sys2Proof.Machine.execTcs n s
  | .tcu n => Sys2Proof.Machine.execTcu n s
  | .tc n => Sys2Proof.Machine.execTc n s
  | .tcsl n => Sys2Proof.Machine.execTcsl n s
  | .tcul n => Sys2Proof.Machine.execTcul n s
  | .tcl n => Sys2Proof.Machine.execTcl n s
  | .w2l le ll => Sys2Proof.Machine.execW2l le ll s
  | .l2w le ll => Sys2Proof.Machine.execL2w le ll s
  | .fdec dp => Sys2Proof.Machine.execFdec dp s
  | .fenc dp => Sys2Proof.Machine.execFenc dp s

end Sys2Proof.Machine
end

