-- ==== Sys2Proof/Machine/Serve.lean ====
section
/-! DEFINITION. One turn of the transaction system: the block serves a request (10_state.md R30, 30_encoding.md R74), a
requester issues one (R31), or reset is asserted (70_reset_and_hazards.md R251). -/

namespace Sys2Proof.Machine

/-- The block's step: decode the command word of the request served; an illegal word is answered ILLEGAL_COMMAND before
its payload is looked at (60_exceptions.md R225), a legal one is executed. With no request in flight the block waits. -/
def serve (s : State) : Host.Outcome State Fault Refusal :=
  match s.selected with
  | none => .next s
  | some q =>
    match decode q.cmd with
    | .illegal _ => .next (s.answer q respIllegal)
    | .op i => exec i s

/-- The turn the schedule names; where it names none, the block serves (70_reset_and_hazards.md R257; log entry 2). -/
def takeTurn (s : State) : Host.Outcome State Fault Refusal :=
  match s.schedule with
  | [] => serve s
  | .serve :: _ => serve s.popTurn
  | .issue q :: _ => s.popTurn.issue q
  | .reset :: _ => .next s.popTurn.resetTurn

end Sys2Proof.Machine
end

