-- ==== Sys2Proof/Machine/Step.lean ====
section
/-! DEFINITION. The step, and the state in which a given command is the next one served. -/

namespace Sys2Proof.Machine

/-- One turn of the transaction system (10_state.md R30, R31). -/
def step (s : State) : Host.Outcome State Fault Refusal := takeTurn s

/-- `s` with the command of `w`'s low `nbits` bits (the others 0) issued by requester 0, beside a payload of the kind it
takes, as the next request served (log entry 13). -/
def State.withFetchWord (s : State) (nbits w : Nat) : State :=
  s.placeCommand (BitVec.ofNat 32 (w % 2 ^ nbits))

end Sys2Proof.Machine
end

