-- ==== Sys2Proof/Machine/Asm.lean ====
section
/-! DEFINITION. The assembler of 30_encoding.md section 6: the grammar (R76), the defaults (R77) and the source's
operation names (R78). It turns a line into a command word and its payload; it is no part of the block. -/

namespace Sys2Proof.Machine

/-- The twelve mnemonics (R76). -/
inductive Mnemonic where
  | bits | bpack | tcs | tcu | tc | tcsl | tcul | tcl | w2l | l2w | fdec | fenc
deriving DecidableEq, Repr

/-- A modifier (R76). -/
inductive Modifier where
  | w (n : Nat)
  | be | le
  | l | ll
  | sp | dp
deriving DecidableEq, Repr

/-- A floating-point literal (R76): `decimal negative digits exp10` is `± digits · 10^exp10`, so `-0.0` is
`decimal true 0 (-1)`. -/
inductive FloatLit where
  | decimal (negative : Bool) (digits : Nat) (exp10 : Int)
  | nan
  | infinity (negative : Bool)
  | raw (b : Nat)
deriving DecidableEq, Repr

/-- An operand (R76). -/
inductive AsmOperand where
  | integer (v : Int)
  | list (l : List Int)
  | pattern (p : Nat)
  | float (f : FloatLit)
deriving DecidableEq, Repr

/-- One command line (R76). -/
structure AsmLine where
  mnemonic : Mnemonic
  modifiers : List Modifier
  operand : AsmOperand
deriving DecidableEq, Repr

/-- An assembler error (R76). -/
inductive AsmError where
  /-- the line is not of the grammar -/
  | badText
  /-- two modifiers of one group -/
  | repeatedModifier
  /-- a modifier of a group the mnemonic does not read -/
  | unreadModifier
  /-- `.w` outside 1 ≤ n ≤ NMAX -/
  | widthOutOfRange
  /-- an operand of a form the mnemonic does not take, or a literal that does not fit -/
  | badOperand
deriving DecidableEq, Repr

/-- The modifiers given, one place for each group: width, word order (LE), mode (LL), precision (DP). -/
structure Modifiers where
  width : Option Nat := none
  order : Option Bool := none
  mode : Option Bool := none
  precision : Option Bool := none
deriving DecidableEq, Repr

/-- One more modifier; none where its group has one already (R76). -/
def addModifier (g : Modifiers) : Modifier → Option Modifiers
  | .w n => if g.width.isSome then none else some { g with width := some n }
  | .be => if g.order.isSome then none else some { g with order := some false }
  | .le => if g.order.isSome then none else some { g with order := some true }
  | .l => if g.mode.isSome then none else some { g with mode := some false }
  | .ll => if g.mode.isSome then none else some { g with mode := some true }
  | .sp => if g.precision.isSome then none else some { g with precision := some false }
  | .dp => if g.precision.isSome then none else some { g with precision := some true }

/-- The modifiers of a line by group. -/
def gatherModifiers : Modifiers → List Modifier → Option Modifiers
  | g, [] => some g
  | g, m :: rest =>
    match addModifier g m with
    | none => none
    | some g' => gatherModifiers g' rest

/-- A width-taking mnemonic: `.w` alone may be given, 16 where it is omitted (R76, R77). -/
def asmWidthOp (op : BitVec 16 → Instr) (g : Modifiers) : Except AsmError Instr :=
  if g.order.isSome || g.mode.isSome || g.precision.isSome then .error .unreadModifier
  else
    let n := g.width.getD 16
    if decide (1 ≤ n) && decide (n ≤ Config.nmax) then .ok (op (BitVec.ofNat 16 n))
    else .error .widthOutOfRange

/-- W2L or L2W: `.be` and `.l` where they are omitted (R76, R77). -/
def asmOrderOp (op : Bool → Bool → Instr) (g : Modifiers) : Except AsmError Instr :=
  if g.width.isSome || g.precision.isSome then .error .unreadModifier
  else .ok (op (g.order.getD false) (g.mode.getD false))

/-- FDEC or FENC: `.sp` where it is omitted (R76, R77). -/
def asmPrecisionOp (op : Bool → Instr) (g : Modifiers) : Except AsmError Instr :=
  if g.width.isSome || g.order.isSome || g.mode.isSome then .error .unreadModifier
  else .ok (op (g.precision.getD false))

/-- The instruction a mnemonic and its modifiers name (R61, R76, R77). -/
def asmInstr (m : Mnemonic) (g : Modifiers) : Except AsmError Instr :=
  match m with
  | .bits => asmWidthOp .bits g
  | .bpack => asmWidthOp .bpack g
  | .tcs => asmWidthOp .tcs g
  | .tcu => asmWidthOp .tcu g
  | .tc => asmWidthOp .tc g
  | .tcsl => asmWidthOp .tcsl g
  | .tcul => asmWidthOp .tcul g
  | .tcl => asmWidthOp .tcl g
  | .w2l => asmOrderOp .w2l g
  | .l2w => asmOrderOp .l2w g
  | .fdec => asmPrecisionOp .fdec g
  | .fenc => asmPrecisionOp .fenc g

/-- The mnemonic of an instruction (R61). -/
def instrMnemonic : Instr → Mnemonic
  | .bits _ => .bits
  | .bpack _ => .bpack
  | .tcs _ => .tcs
  | .tcu _ => .tcu
  | .tc _ => .tc
  | .tcsl _ => .tcsl
  | .tcul _ => .tcul
  | .tcl _ => .tcl
  | .w2l _ _ => .w2l
  | .l2w _ _ => .l2w
  | .fdec _ => .fdec
  | .fenc _ => .fenc

/-- Its letters (R61). -/
def instrMnemonicText : Instr → List Char
  | .bits _ => ['B', 'I', 'T', 'S']
  | .bpack _ => ['B', 'P', 'A', 'C', 'K']
  | .tcs _ => ['T', 'C', 'S']
  | .tcu _ => ['T', 'C', 'U']
  | .tc _ => ['T', 'C']
  | .tcsl _ => ['T', 'C', 'S', 'L']
  | .tcul _ => ['T', 'C', 'U', 'L']
  | .tcl _ => ['T', 'C', 'L']
  | .w2l _ _ => ['W', '2', 'L']
  | .l2w _ _ => ['L', '2', 'W']
  | .fdec _ => ['F', 'D', 'E', 'C']
  | .fenc _ => ['F', 'E', 'N', 'C']

/-- The modifiers that give an instruction's fields, none omitted (R62 to R67, R76). -/
def instrModifiers : Instr → List Modifier
  | .bits n => [.w n.toNat]
  | .bpack n => [.w n.toNat]
  | .tcs n => [.w n.toNat]
  | .tcu n => [.w n.toNat]
  | .tc n => [.w n.toNat]
  | .tcsl n => [.w n.toNat]
  | .tcul n => [.w n.toNat]
  | .tcl n => [.w n.toNat]
  | .w2l le ll => [if le then .le else .be, if ll then .ll else .l]
  | .l2w le ll => [if le then .le else .be, if ll then .ll else .l]
  | .fdec dp => [if dp then .dp else .sp]
  | .fenc dp => [if dp then .dp else .sp]

/-- The integer nearest to `a / u`, a tie going up as `tieUp` says (R76). -/
def roundNearest (tieUp : Bool) (a u : Nat) : Nat :=
  if 2 * (a % u) < u then a / u
  else if u < 2 * (a % u) then a / u + 1
  else if tieUp then a / u + 1 else a / u

/-- The binary64 magnitude nearest to `num / den` in units of 2^-1074: the spacing there is `2^(max(e, -1022) - 52)`
(R76; log entry 15). -/
def rounded64 (num den : Nat) : Nat :=
  let spacing := 2 ^ (max (Nat.log2 (num * 2 ^ 1074 / den)) 52 - 52)
  roundNearest (Config.assemblerTieUp num den) (num * 2 ^ 1074) (den * spacing) * spacing

/-- The binary64 datum of sign `s` and magnitude `r` units of 2^-1074, `r` being a multiple of its spacing (R181, R183). -/
def encode64 (s : Bool) (r : Nat) : F64 :=
  if 2 ^ 2098 ≤ r then pack64 s 0x7FF 0
  else if r < 2 ^ 52 then pack64 s 0 r
  else pack64 s (Nat.log2 r - 51) (r / 2 ^ (Nat.log2 r - 52) - 2 ^ 52)

/-- The datum of a floating-point literal (R76); none where raw bits do not fit 64 bits. DESIGN CHOICE: R76 names the
assembler error for word and long list elements only, and the model makes raw bits above 64 one too (log entry 15). -/
def floatLitBits : FloatLit → Option F64
  | .decimal s d (.ofNat k) => some (encode64 s (rounded64 (d * 10 ^ k) 1))
  | .decimal s d (.negSucc k) => some (encode64 s (rounded64 d (10 ^ (k + 1))))
  | .nan => some (nanBits Config.assemblerNaN)
  | .infinity s => some (pack64 s 0x7FF 0)
  | .raw b => if b < 2 ^ 64 then some (BitVec.ofNat 64 b) else none

/-- An integer as an `n`-bit literal; none where it does not fit (R76). DESIGN CHOICE: no negative integer fits (log
entry 15). -/
def fitBits (n : Nat) (v : Int) : Option (BitVec n) :=
  match v with
  | .ofNat k => if k < 2 ^ n then some (BitVec.ofNat n k) else none
  | .negSucc _ => none

/-- The bool a literal's value is: 0 or 1 (R76). How it is spelled is `readBool`'s. -/
def fitBool (v : Int) : Option Bool :=
  if v = 0 then some false else if v = 1 then some true else none

/-- The payload of the operand at the kind the operation takes (R70, R76); none where it has another form or does not
fit. DESIGN CHOICE: a negative integer for BITS, and a `pat:` or `f64:` literal above 64 bits, are errors, which R76 does
not say; a pattern above 32 bits is none, whatever the precision (log entry 15). -/
def asmPayload : Kind → AsmOperand → Option Payload
  | .nat, .integer (.ofNat k) => some (.pNat k)
  | .int, .integer v => some (.pInt v)
  | .ints, .list l => some (.pInts l)
  | .bools, .list l => (l.mapM fitBool).map .pBools
  | .words, .list l => (l.mapM (fitBits 16)).map .pWords
  | .longs, .list l => (l.mapM (fitBits 64)).map .pLongs
  | .pat, .pattern p => (fitBits 64 (.ofNat p)).map .pPat
  | .f64, .float f => (floatLitBits f).map .pF64
  | _, _ => none

/-- The command word and payload of a line (R76, R77). -/
def assemble (a : AsmLine) : Except AsmError (Command × Payload) :=
  match gatherModifiers {} a.modifiers with
  | none => .error .repeatedModifier
  | some g =>
    match asmInstr a.mnemonic g with
    | .error e => .error e
    | .ok i =>
      match asmPayload (argKind i) a.operand with
      | none => .error .badOperand
      | some p => .ok (encode i, p)

/-- The source's operation names, with their arguments; a trailing argument may be omitted (R78). DESIGN CHOICE: an omitted
`big_endian` beside a given `long_long`, which is no trailing argument, takes its default too (log entry 15). -/
inductive Shorthand where
  | bitsFromInt (v : Int) (width : Option Nat)
  | toSigned (v : Int) (width : Option Nat)
  | toUnsigned (v : Int) (width : Option Nat)
  | wordsToLongs (l : List Int) (bigEndian longLong : Option Bool)
  | longsToWords (l : List Int) (bigEndian longLong : Option Bool)
  | decodeFloat (p : Nat) (doublePrecision : Option Bool)
  | encodeFloat (f : FloatLit) (doublePrecision : Option Bool)
deriving DecidableEq, Repr

/-- `.be` if `big_endian` else `.le`, and `.ll` if `long_long` else `.l`; the defaults are big-endian and long (R77, R78). -/
def orderModifiers (bigEndian longLong : Option Bool) : List Modifier :=
  [if bigEndian.getD true then .be else .le, if longLong.getD false then .ll else .l]

/-- The precision modifier of a shorthand; the default is single (R77, R78). -/
def precisionModifiers (dp : Option Bool) : List Modifier := [if dp.getD false then .dp else .sp]

/-- The one command a shorthand expands to (R78). -/
def expandShorthand : Shorthand → AsmLine
  | .bitsFromInt v n => ⟨.bits, [.w (n.getD 16)], .integer v⟩
  | .toSigned v n => ⟨.tcs, [.w (n.getD 16)], .integer v⟩
  | .toUnsigned v n => ⟨.tcu, [.w (n.getD 16)], .integer v⟩
  | .wordsToLongs l be ll => ⟨.w2l, orderModifiers be ll, .list l⟩
  | .longsToWords l be ll => ⟨.l2w, orderModifiers be ll, .list l⟩
  | .decodeFloat p dp => ⟨.fdec, precisionModifiers dp, .pattern p⟩
  | .encodeFloat f dp => ⟨.fenc, precisionModifiers dp, .float f⟩

/-- The value of a decimal digit. DESIGN CHOICE: R76 does not say which characters `decimal` is made of; 0 to 9 are read
(log entry 15). -/
def decDigit (c : Char) : Option Nat :=
  if '0' ≤ c ∧ c ≤ '9' then some (c.toNat - 48) else none

/-- The value of a hexadecimal digit. DESIGN CHOICE: R76 does not say which characters `hex` is made of; both cases are
read (log entry 15). -/
def hexDigit (c : Char) : Option Nat :=
  if '0' ≤ c ∧ c ≤ '9' then some (c.toNat - 48)
  else if 'a' ≤ c ∧ c ≤ 'f' then some (c.toNat - 87)
  else if 'A' ≤ c ∧ c ≤ 'F' then some (c.toNat - 55)
  else none

/-- The digits so far and those that follow, in a base. -/
def readDigits (base : Nat) (digit : Char → Option Nat) : Nat → List Char → Option Nat
  | acc, [] => some acc
  | acc, c :: cs =>
    match digit c with
    | none => none
    | some d => readDigits base digit (acc * base + d) cs

/-- At least one decimal digit; leading zeros are allowed (DESIGN CHOICE, log entry 15). -/
def readDecimal (cs : List Char) : Option Nat :=
  if cs.isEmpty then none else readDigits 10 decDigit 0 cs

/-- At least one hexadecimal digit; leading zeros are allowed (DESIGN CHOICE, log entry 15). -/
def readHex (cs : List Char) : Option Nat :=
  if cs.isEmpty then none else readDigits 16 hexDigit 0 cs

/-- Hexadecimal digits, with or without `0x` before them, never `0X` (DESIGN CHOICE, log entry 15). -/
def readHexMaybe : List Char → Option Nat
  | '0' :: 'x' :: cs => readHex cs
  | cs => readHex cs

/-- `decimal | "0x" hex`. -/
def readNat : List Char → Option Nat
  | '0' :: 'x' :: cs => readHex cs
  | cs => readDecimal cs

/-- `integer ::= ["-"] (decimal | "0x" hex)` (R76). -/
def readInteger : List Char → Option Int
  | '-' :: cs => (readNat cs).map fun k => -Int.ofNat k
  | cs => (readNat cs).map Int.ofNat

/-- The text cut at every `sep`. -/
def splitOnChar (sep : Char) : List Char → List (List Char)
  | [] => [[]]
  | c :: cs =>
    if c = sep then [] :: splitOnChar sep cs
    else match splitOnChar sep cs with
      | [] => [[c]]
      | w :: ws => (c :: w) :: ws

/-- `bool ::= 0 | 1`: the digit and no other spelling of the value (R76). -/
def readBool : List Char → Option Int
  | ['0'] => some 0
  | ['1'] => some 1
  | _ => none

/-- `"[" elem ("," elem)* "]" | "[]"` (R76). The empty list is read for PBools too (DESIGN CHOICE, log entry 15). -/
def readList (elem : List Char → Option Int) : List Char → Option (List Int)
  | ['[', ']'] => some []
  | '[' :: cs =>
    if cs.getLast? = some ']' then (splitOnChar ',' cs.dropLast).mapM elem else none
  | _ => none

/-- The exponent of a decimal literal, after its `e`: an optional `-` or `+` and decimal digits. DESIGN CHOICE: R76 gives
no grammar of it (log entry 15). -/
def readExponent : List Char → Option Int
  | '-' :: cs => (readDecimal cs).map fun k => -Int.ofNat k
  | '+' :: cs => (readDecimal cs).map Int.ofNat
  | cs => (readDecimal cs).map Int.ofNat

/-- Digits with at most one point among, before or after them, times ten to `e`, so that `5.` and `.5` are read and `.` is
not. DESIGN CHOICE: R76 gives no grammar of a decimal literal (log entry 15). -/
def readMantissa (negative : Bool) (e : Int) (cs : List Char) : Option FloatLit :=
  match splitOnChar '.' cs with
  | [whole] => (readDecimal whole).map fun d => .decimal negative d e
  | [whole, part] => (readDecimal (whole ++ part)).map fun d => .decimal negative d (e - Int.ofNat part.length)
  | _ => none

/-- A decimal literal after its optional `-`: a mantissa, and a lowercase `e` with an exponent or neither. DESIGN CHOICE:
R76 gives no grammar of a decimal literal; an uppercase `E` and a leading `+` are no part of one here (log entry 15). -/
def readDecimalFloat (negative : Bool) (cs : List Char) : Option FloatLit :=
  match splitOnChar 'e' cs with
  | [m] => readMantissa negative 0 m
  | [m, x] =>
    match readExponent x with
    | none => none
    | some e => readMantissa negative e m
  | _ => none

/-- `float | "f64:" hex`: a decimal literal, nan, inf, -inf, or raw bits (R76), the words in lowercase as R76 writes them;
the form of a decimal literal and of hex digits is the model's (DESIGN CHOICE, log entry 15). -/
def readFloat : List Char → Option FloatLit
  | ['n', 'a', 'n'] => some .nan
  | ['i', 'n', 'f'] => some (.infinity false)
  | ['-', 'i', 'n', 'f'] => some (.infinity true)
  | 'f' :: '6' :: '4' :: ':' :: cs => (readHexMaybe cs).map .raw
  | '-' :: cs => readDecimalFloat true cs
  | cs => readDecimalFloat false cs

/-- `"pat:" hex` (R76). -/
def readPattern : List Char → Option Nat
  | 'p' :: 'a' :: 't' :: ':' :: cs => readHexMaybe cs
  | _ => none

/-- The mnemonic a word spells (R76). -/
def readMnemonic : List Char → Option Mnemonic
  | ['B', 'I', 'T', 'S'] => some .bits
  | ['B', 'P', 'A', 'C', 'K'] => some .bpack
  | ['T', 'C', 'S'] => some .tcs
  | ['T', 'C', 'U'] => some .tcu
  | ['T', 'C'] => some .tc
  | ['T', 'C', 'S', 'L'] => some .tcsl
  | ['T', 'C', 'U', 'L'] => some .tcul
  | ['T', 'C', 'L'] => some .tcl
  | ['W', '2', 'L'] => some .w2l
  | ['L', '2', 'W'] => some .l2w
  | ['F', 'D', 'E', 'C'] => some .fdec
  | ['F', 'E', 'N', 'C'] => some .fenc
  | _ => none

/-- The modifier a word spells, after its point (R76). -/
def readModifier : List Char → Option Modifier
  | ['b', 'e'] => some .be
  | ['l', 'e'] => some .le
  | ['l'] => some .l
  | ['l', 'l'] => some .ll
  | ['s', 'p'] => some .sp
  | ['d', 'p'] => some .dp
  | 'w' :: cs => (readDecimal cs).map .w
  | _ => none

/-- The kind of operand text a mnemonic is followed by (R70). -/
def mnemonicKind : Mnemonic → Kind
  | .bits => .nat
  | .bpack => .bools
  | .tcs => .int
  | .tcu => .int
  | .tc => .int
  | .tcsl => .ints
  | .tcul => .ints
  | .tcl => .ints
  | .w2l => .words
  | .l2w => .longs
  | .fdec => .pat
  | .fenc => .f64

/-- The operand of a line, read as the mnemonic's kind asks (R70, R76): a list of bools from bools, every other list from
integers. -/
def readOperand (k : Kind) (cs : List Char) : Option AsmOperand :=
  match k with
  | .nat => (readInteger cs).map .integer
  | .int => (readInteger cs).map .integer
  | .ints => (readList readInteger cs).map .list
  | .bools => (readList readBool cs).map .list
  | .words => (readList readInteger cs).map .list
  | .longs => (readList readInteger cs).map .list
  | .pat => (readPattern cs).map .pattern
  | .f64 => (readFloat cs).map .float

/-- `mnemonic modifier* operand`: the first word holds the mnemonic and the modifiers, the rest, less its spaces, is the
operand (R76; the spacing is the model's, DESIGN CHOICE, log entry 15). -/
def readLine (cs : List Char) : Option AsmLine :=
  match splitOnChar '.' (cs.takeWhile (· != ' ')) with
  | [] => none
  | head :: mods =>
    match readMnemonic head, mods.mapM readModifier with
    | some m, some ms =>
      (readOperand (mnemonicKind m) ((cs.dropWhile (· != ' ')).filter (· != ' '))).map fun o => ⟨m, ms, o⟩
    | _, _ => none

/-- A line of text to its command word and payload (R76, R77). -/
def assembleText (cs : List Char) : Except AsmError (Command × Payload) :=
  match readLine cs with
  | none => .error .badText
  | some a => assemble a

end Sys2Proof.Machine
end

