-- ==== Sys2Proof/Safety.lean ====
section
/-! DEFINITION. What a run of the block must satisfy, in the terms the claims use: Exec as a set of responses
(10_state.md R30), the invariant every step keeps, and when a run is complete (R33). -/

namespace Sys2Proof

open Sys2Proof.Machine

/-- The response of an operation to a payload, with `nan` the NaN drawn (30_encoding.md R74 after the decoder). -/
def Instr.response (i : Instr) (nan : NaN64) (arg : Payload) : Resp :=
  match i with
  | .bits n => respBits n.toNat arg
  | .bpack n => respBpack n.toNat arg
  | .tcs n => respScalar (toSigned n.toNat) arg
  | .tcu n => respScalar (toUnsigned n.toNat) arg
  | .tc n => respScalar (toOther n.toNat) arg
  | .tcsl n => respListForm (toSigned n.toNat) arg
  | .tcul n => respListForm (toUnsigned n.toNat) arg
  | .tcl n => respListForm (toOther n.toNat) arg
  | .w2l le ll => respW2l le ll arg
  | .l2w le ll => respL2w le ll arg
  | .fdec dp => respFdec dp nan arg
  | .fenc dp => respFenc dp arg

/-- The response of `Exec(cmd, arg)` with `nan` the NaN drawn (30_encoding.md R74). -/
def execResponse (cmd : Command) (arg : Payload) (nan : NaN64) : Resp :=
  match decode cmd with
  | .illegal _ => respIllegal
  | .op i => i.response nan arg

/-- `r ∈ Exec(cmd, arg)` (10_state.md R30): one response for each NaN that may be drawn. -/
def Admits (cmd : Command) (arg : Payload) (r : Resp) : Prop := ∃ nan, r = execResponse cmd arg nan

/-- Every request is of one of the K requesters, and every response delivered is one `Exec` gives its request
(R28, R30, R51). -/
structure Machine.State.Inv (s : State) : Prop where
  requester : ∀ q ∈ s.unanswered, q.rq < Config.requesters
  served : ∀ d ∈ s.delivered, d.req.rq < Config.requesters ∧ Admits d.req.cmd d.req.arg d.resp

/-- The state in which the block serves, where the next turn is the block's: the turn is taken, or none is left. -/
def Machine.State.blockTurn (s : State) : Option State :=
  match s.schedule with
  | [] => some s
  | .serve :: _ => some s.popTurn
  | .issue _ :: _ => none
  | .reset :: _ => none

/-- The requests FDEC answers with a NaN of its choice: a NaN pattern at the precision asked for (43_ieee754.md R189). -/
def DrawsNaN (cmd : Command) (arg : Payload) : Prop :=
  (decode cmd = .op (.fdec true) ∧ ∃ p, arg = .pPat p ∧ isNaN64 p = true) ∨
  (decode cmd = .op (.fdec false) ∧ ∃ q : BitVec 32, arg = .pPat (q.setWidth 64) ∧ isNaN32 q = true)

/-- The conditions of SHAPE_ERROR (60_exceptions.md R223). -/
def ShapeFails (i : Instr) (arg : Payload) : Prop :=
  payloadKind arg ≠ argKind i ∨ payloadTooLong arg = true ∨
  ∃ n b, i = .bpack n ∧ arg = .pBools b ∧ b.length ≠ n.toNat

/-- The table of RANGE_ERROR conditions, row by row: the operand's element at position `k` is outside the operation's
domain (60_exceptions.md R221). A scalar operand has the one position 0. -/
def RangeFails : Instr → Payload → Nat → Prop
  | .tcs n, .pInt v, k => k = 0 ∧ (v < 0 ∨ v > 2 ^ n.toNat - 1)
  | .tcu n, .pInt v, k => k = 0 ∧ (v < -2 ^ (n.toNat - 1) ∨ v > 2 ^ (n.toNat - 1) - 1)
  | .tc n, .pInt v, k => k = 0 ∧ (v < -2 ^ (n.toNat - 1) ∨ v > 2 ^ n.toNat - 1)
  | .tcsl n, .pInts l, k => ∃ v, l[k]? = some v ∧ (v < 0 ∨ v > 2 ^ n.toNat - 1)
  | .tcul n, .pInts l, k => ∃ v, l[k]? = some v ∧ (v < -2 ^ (n.toNat - 1) ∨ v > 2 ^ (n.toNat - 1) - 1)
  | .tcl n, .pInts l, k => ∃ v, l[k]? = some v ∧ (v < -2 ^ (n.toNat - 1) ∨ v > 2 ^ n.toNat - 1)
  | .l2w _ false, .pLongs l, k => ∃ x, l[k]? = some x ∧ 2 ^ 32 ≤ x.toNat
  | .fdec false, .pPat p, k => k = 0 ∧ 2 ^ 32 ≤ p.toNat
  | _, _, _ => False

/-- A run is complete when every issued request has received its response: none waits, and none was abandoned by a reset
(R33, R251). When requesters stop issuing is not part of it: the schedule may hold further turns. -/
def Machine.State.Complete (s : State) : Prop := s.unanswered = []

/-- What the requester `rq` has seen answered, in the order of delivery (R32). -/
def Machine.State.answeredOf (s : State) (rq : Nat) : List Req :=
  (s.delivered.map (fun d => d.req)).filter (fun q => q.rq == rq)

/-- What the requester `rq` has in flight, in the order of issue (R32). -/
def Machine.State.waitingOf (s : State) (rq : Nat) : List Req := s.inFlight.filter (fun q => q.rq == rq)

/-- The requests that the turns of a schedule issue, in order (R31). -/
def issuedIn : List Turn → List Req
  | [] => []
  | .issue q :: rest => q :: issuedIn rest
  | .serve :: rest => issuedIn rest
  | .reset :: rest => issuedIn rest

/-- Those that the requester `rq` issues. -/
def issuedOf (rq : Nat) (turns : List Turn) : List Req := (issuedIn turns).filter (fun q => q.rq == rq)

end Sys2Proof
end

