-- ==== Sys2Proof/Certificates/Slice0/Obligations.lean ====
section
/-! DEFINITION. The statements for the provers. Each docstring names the rule of spec/ it formalises. -/

open Sys2Proof Sys2Proof.Machine

/-! ## The command word -/

/-- R60, R62 to R66 with the slicing of R10: the fields of a command word are its bits 31:16, 15:7, 6, 5, 4 and 3:0. -/
def Obligations.FieldsAreTheBitsOfTheCommand : Prop :=
  ∀ cmd : Command,
    (fieldsOf cmd).width.toNat = cmd.toNat / 2 ^ 16 ∧
    (fieldsOf cmd).rsv.toNat = cmd.toNat / 2 ^ 7 % 2 ^ 9 ∧
    ((fieldsOf cmd).dp = true ↔ cmd.toNat / 2 ^ 6 % 2 = 1) ∧
    ((fieldsOf cmd).ll = true ↔ cmd.toNat / 2 ^ 5 % 2 = 1) ∧
    ((fieldsOf cmd).le = true ↔ cmd.toNat / 2 ^ 4 % 2 = 1) ∧
    (fieldsOf cmd).opc.toNat = cmd.toNat % 2 ^ 4

/-- R60, R61, R67, R68: the decoder reads every well-formed instruction back from its command word. -/
def Obligations.DecodeOfEncode : Prop :=
  ∀ i : Instr, i.WellFormed → decode (encode i) = .op i

/-- R71: a legal word names one well-formed operation, the word is that operation's only one, and two legal words never
name the same operation with the same field values. -/
def Obligations.DecodingIsUnambiguous : Prop :=
  (∀ cmd : Command, (∃ why, decode cmd = .illegal why) ∨
    ∃ i : Instr, decode cmd = .op i ∧ i.WellFormed ∧ encode i = cmd) ∧
  ∀ (cmd cmd' : Command) (i : Instr), decode cmd = .op i → decode cmd' = .op i → cmd = cmd'

/-- R75: the example words, legal and illegal. -/
def Obligations.ExampleWords : Prop :=
  decode 0x00100000 = .op (.bits 16) ∧ decode 0x00200000 = .op (.bits 32) ∧
  decode 0x00100001 = .op (.bpack 16) ∧ decode 0x00100002 = .op (.tcs 16) ∧
  decode 0x00200002 = .op (.tcs 32) ∧ decode 0x00100003 = .op (.tcu 16) ∧
  decode 0x00200003 = .op (.tcu 32) ∧ decode 0x00100004 = .op (.tc 16) ∧
  decode 0x00100005 = .op (.tcsl 16) ∧ decode 0x00100006 = .op (.tcul 16) ∧
  decode 0x00100007 = .op (.tcl 16) ∧
  decode 0x00000008 = .op (.w2l false false) ∧ decode 0x00000018 = .op (.w2l true false) ∧
  decode 0x00000028 = .op (.w2l false true) ∧ decode 0x00000038 = .op (.w2l true true) ∧
  decode 0x00000009 = .op (.l2w false false) ∧ decode 0x00000019 = .op (.l2w true false) ∧
  decode 0x00000029 = .op (.l2w false true) ∧ decode 0x00000039 = .op (.l2w true true) ∧
  decode 0x0000000A = .op (.fdec false) ∧ decode 0x0000004A = .op (.fdec true) ∧
  decode 0x0000000B = .op (.fenc false) ∧ decode 0x0000004B = .op (.fenc true) ∧
  ∀ cmd ∈ [(0x00000000 : Command), 0x0000000C, 0x00100008, 0x00000080, 0x0010001A],
    (decode cmd).instr? = none

/-! ## The transaction system -/

/-- R30, R74: where the block has the turn and serves `q`, the step executes the instruction `q`'s command word decodes
to, in the state without the turn taken; that instruction is well-formed. -/
def Obligations.StepRunsTheDecodedInstruction : Prop :=
  ∀ (s t : State) (q : Req) (i : Instr),
    s.blockTurn = some t → t.selected = some q → decode q.cmd = .op i →
    step s = exec i t ∧ i.WellFormed

/-- R222: a request is answered ILLEGAL_COMMAND, with index 0 and no result, exactly when one of the listed conditions
on its command word holds, whatever its payload is. -/
def Obligations.IllegalCommandsAreAnswered : Prop :=
  ∀ (s t : State) (q : Req), s.blockTurn = some t → t.selected = some q →
    (step s = .next (t.answer q ⟨.illegalCommand, 0, none⟩) ↔
      q.cmd.toNat / 2 ^ 7 % 2 ^ 9 ≠ 0 ∨
      12 ≤ q.cmd.toNat % 2 ^ 4 ∨
      (q.cmd.toNat % 2 ^ 4 ≤ 7 ∧
        (q.cmd.toNat / 2 ^ 4 % 2 = 1 ∨ q.cmd.toNat / 2 ^ 5 % 2 = 1 ∨ q.cmd.toNat / 2 ^ 6 % 2 = 1 ∨
          q.cmd.toNat / 2 ^ 16 = 0 ∨ Config.nmax < q.cmd.toNat / 2 ^ 16)) ∨
      ((q.cmd.toNat % 2 ^ 4 = 8 ∨ q.cmd.toNat % 2 ^ 4 = 9) ∧
        (q.cmd.toNat / 2 ^ 6 % 2 = 1 ∨ q.cmd.toNat / 2 ^ 16 ≠ 0)) ∨
      ((q.cmd.toNat % 2 ^ 4 = 10 ∨ q.cmd.toNat % 2 ^ 4 = 11) ∧
        (q.cmd.toNat / 2 ^ 4 % 2 = 1 ∨ q.cmd.toNat / 2 ^ 5 % 2 = 1 ∨ q.cmd.toNat / 2 ^ 16 ≠ 0)))

/-- R30: the block's step answers the request it serves with a response of `Exec`; `Exec` has exactly one response for
every request but FDEC on a NaN pattern, for which it has one for each binary64 NaN. -/
def Obligations.TheBlockAnswersWithAResponseOfExec : Prop :=
  (∀ (s t : State) (q : Req), s.blockTurn = some t → t.selected = some q →
    ∃ r, Admits q.cmd q.arg r ∧ step s = .next (t.answer q r)) ∧
  (∀ (cmd : Command) (arg : Payload), ¬ DrawsNaN cmd arg → ∃! r, Admits cmd arg r) ∧
  (∀ (cmd : Command) (arg : Payload), DrawsNaN cmd arg →
    ∀ r, Admits cmd arg r ↔ ∃ f : F64, isNaN64 f = true ∧ r = ⟨.ok, 0, some (.pF64 f)⟩)

/-- R20, R48, R51, R229: two requests with the same command word and payload get the same response, whatever else the
two states hold and whatever was served before, but for FDEC on a NaN pattern. -/
def Obligations.TheResponseDependsOnTheRequestAlone : Prop :=
  ∀ (s s' t t' : State) (q q' : Req),
    s.blockTurn = some t → t.selected = some q → s'.blockTurn = some t' → t'.selected = some q' →
    q.cmd = q'.cmd → q.arg = q'.arg → ¬ DrawsNaN q.cmd q.arg →
    ∃ r, step s = .next (t.answer q r) ∧ step s' = .next (t'.answer q' r)

/-- R32: the block serves the oldest request of some requester, one whenever any request is in flight, and an answer
takes exactly that request out of the requests in flight. -/
def Obligations.TheOldestOfARequesterIsServed : Prop :=
  ∀ s : State,
    (s.inFlight ≠ [] → ∃ q, s.selected = some q) ∧
    ∀ q, s.selected = some q → ∃ pre post,
      s.inFlight = pre ++ q :: post ∧ (∀ p ∈ pre, p.rq ≠ q.rq) ∧
      ∀ r, (s.answer q r).inFlight = pre ++ post

/-- R32, I17: the service order is free: the oldest request of every requester in flight is served next at some value
of the free choice. (The free choice is the model's form of "any order", log entry 3.) -/
def Obligations.EveryRequesterMayBeServedNext : Prop :=
  ∀ (pre post : List Req) (q : Req), (∀ p ∈ pre, p.rq ≠ q.rq) →
    ∃ c, pickOne c (oldestEach (pre ++ q :: post)) = some q

/-- R32: at every step, each requester's requests, answered first and waiting after them, stay in the order of issue:
the block's turn moves at most from waiting to answered, an issue adds at the end, and reset drops what waits. -/
def Obligations.ResponsesKeepTheIssueOrder : Prop :=
  ∀ (s s' : State) (rq : Nat), step s = .next s' →
    match s.schedule with
    | .issue q :: _ =>
      s'.answeredOf rq = s.answeredOf rq ∧
      s'.waitingOf rq = s.waitingOf rq ++ (if q.rq = rq then [q] else [])
    | .reset :: _ => s'.answeredOf rq = s.answeredOf rq ∧ s'.waitingOf rq = []
    | _ =>
      s'.answeredOf rq ++ s'.waitingOf rq = s.answeredOf rq ++ s.waitingOf rq ∧
      s.answeredOf rq <+: s'.answeredOf rq

/-- R31: an issue turn of one of the K requesters puts its request behind those in flight and changes nothing else; an
issue turn of a number that is no requester cannot be presented and is refused by name (log entry 8). -/
def Obligations.IssuingARequest : Prop :=
  ∀ (s : State) (q : Req) (rest : List Turn), s.schedule = .issue q :: rest →
    (q.rq < Config.requesters →
      step s = .next { s with schedule := rest, inFlight := s.inFlight ++ [q] }) ∧
    (Config.requesters ≤ q.rq → step s = .refused .noSuchRequester)

/-- R251, R252: at reset every request in flight is abandoned without a response, nothing else changes, and a request
issued next is in flight as at any other time. (That the abandoned requests stay on record is log entry 18.) -/
def Obligations.ResetAbandonsTheRequestsInFlight : Prop :=
  ∀ (s : State) (rest : List Turn), s.schedule = .reset :: rest →
    step s = .next { s with schedule := rest, inFlight := [], abandoned := s.abandoned ++ s.inFlight } ∧
    ∀ (q : Req) (more : List Turn), rest = .issue q :: more → q.rq < Config.requesters →
      step { s with schedule := rest, inFlight := [], abandoned := s.abandoned ++ s.inFlight } =
        .next { s with schedule := more, inFlight := [q], abandoned := s.abandoned ++ s.inFlight }

/-- A block with nothing to serve changes nothing (R20; that it waits is the model's choice, log entry 2). -/
def Obligations.AnIdleBlockChangesNothing : Prop :=
  ∀ s t : State, s.blockTurn = some t → t.inFlight = [] → step s = .next t

/-- R227, R228: a step never stops the block: it answers a next state, but for an issue turn of a number that is no
requester, which cannot be presented (log entry 8). -/
def Obligations.TheBlockNeverStops : Prop :=
  ∀ s : State, (∃ s', step s = .next s') ∨
    ∃ q rest, s.schedule = .issue q :: rest ∧ Config.requesters ≤ q.rq ∧ step s = .refused .noSuchRequester

/-- R28, R30, R51: every step keeps the invariant that requests come from the K requesters and that every response
delivered is one `Exec` gives its request. -/
def Obligations.EveryStepKeepsTheInvariant : Prop :=
  ∀ s s' : State, s.Inv → step s = .next s' → s'.Inv

/-- R250, R251: the state after reset holds no request in flight, and meets the invariant. That it lists no response
delivered is not the spec's: it is the model's choice, log entry 5 (the model's own reset turn in the middle of a run
keeps the list). -/
def Obligations.ResetMeetsTheInvariant : Prop :=
  State.reset.inFlight = [] ∧ State.reset.delivered = [] ∧ State.reset.Inv

/-- R33: at every point of a run, from any state: of the schedule, some turns are taken, and the run is complete exactly
when the requests answered are, each as often, those that were answered or unanswered at the start and those the turns
taken issued. A request still in flight or abandoned by a reset is among the unanswered. (Log entries 5 and 18: the
lists of answered and abandoned requests are the model's record of R32 and R251.) -/
def Obligations.ARunIsCompleteWhenEveryIssuedRequestIsAnswered : Prop :=
  ∀ (k : Nat) (s t : State), Sys2Proof.core.run k s = .next t →
    ∃ taken, s.schedule = taken ++ t.schedule ∧
      (t.Complete ↔
        (t.delivered.map (fun d => d.req)).Perm
          (s.delivered.map (fun d => d.req) ++ (s.abandoned ++ s.inFlight) ++ issuedIn taken)) ∧
      ((∃ q, q ∈ t.inFlight) → ¬ t.Complete)

/-- R32, R33, R257: from every state whose scheduled requests come from the K requesters, after at most two steps for
each scheduled turn and one for each request in flight no turn is left and no request waits for its response; and where
no reset is scheduled nothing was abandoned, so the run is complete unless a request had been abandoned before, and each
requester has been answered every request it had waiting or issued, in the order of issue. (That the block keeps serving
is the fairness of R257, log entry 2.) -/
def Obligations.EveryRequestIsAnswered : Prop :=
  ∀ s : State, (∀ q, Turn.issue q ∈ s.schedule → q.rq < Config.requesters) →
    ∃ t : State, Sys2Proof.core.run (2 * s.schedule.length + s.inFlight.length) s = .next t ∧
      t.schedule = [] ∧ t.inFlight = [] ∧
      (Turn.reset ∉ s.schedule →
        t.abandoned = s.abandoned ∧ (s.abandoned = [] → t.Complete) ∧
        ∀ rq, t.answeredOf rq = s.answeredOf rq ++ s.waitingOf rq ++ issuedOf rq s.schedule)

/-- R20, R29, R227: the frame of every operation. With request `q` served, exec answers the state in which `q` has its
one response and is no longer in flight: the turns left, the other requests in flight, the requests abandoned and every
earlier response are unchanged. With nothing to serve, nothing changes (log entry 9). -/
def Obligations.ExecFrame : Prop :=
  ∀ (i : Instr) (s : State),
    (s.selected = none → exec i s = .next s) ∧
    ∀ q, s.selected = some q → ∃ t r, exec i s = .next t ∧
      t.delivered = s.delivered ++ [⟨q, r⟩] ∧
      t.inFlight = s.inFlight.eraseP (fun p => p.rq == q.rq) ∧
      t.schedule = s.schedule ∧
      t.abandoned = s.abandoned

/-- R29, R70, R220, R226: a result is given exactly with status OK (code 0) and is of the operation's result kind; the
index is 0 unless a list operation responds RANGE_ERROR (code 1). -/
def Obligations.ResponsesHaveTheFormOfR29 : Prop :=
  ∀ (i : Instr) (s : State) (q : Req), s.selected = some q →
    ∃ r : Resp, exec i s = .next (s.answer q r) ∧
      (statusCode r.status = 0 ↔ ∃ p, r.result = some p) ∧
      (∀ p, r.result = some p → payloadKind p = resultKind i) ∧
      (r.index ≠ 0 → statusCode r.status = 1 ∧
        ((∃ n, i = .tcsl n) ∨ (∃ n, i = .tcul n) ∨ (∃ n, i = .tcl n) ∨ ∃ le, i = .l2w le false))

/-- R223: an operation responds SHAPE_ERROR, index 0, no result, exactly when the payload is of another kind than it
takes, or is a list longer than LMAX, or is BPACK's and its length is not n. -/
def Obligations.ShapeErrorsAreThoseOfR223 : Prop :=
  ∀ (i : Instr) (s : State) (q : Req), s.selected = some q →
    (exec i s = .next (s.answer q ⟨.shapeError, 0, none⟩) ↔
      payloadKind q.arg ≠ argKind i ∨
      (∃ m, Config.lmax = some m ∧
        ((∃ l, q.arg = .pBools l ∧ m < l.length) ∨ (∃ l, q.arg = .pInts l ∧ m < l.length) ∨
          (∃ l, q.arg = .pWords l ∧ m < l.length) ∨ (∃ l, q.arg = .pLongs l ∧ m < l.length))) ∨
      ∃ n b, i = .bpack n ∧ q.arg = .pBools b ∧ b.length ≠ n.toNat)

/-- R221, R225, R226: an operation responds RANGE_ERROR with index k exactly when its payload has the right shape and k
is the position of the first element that meets the operation's condition in the table of R221. -/
def Obligations.RangeErrorsAreThoseOfR221 : Prop :=
  ∀ (i : Instr) (s : State) (q : Req) (k : Nat), s.selected = some q →
    (exec i s = .next (s.answer q ⟨.rangeError, k, none⟩) ↔
      ¬ ShapeFails i q.arg ∧ RangeFails i q.arg k ∧ ∀ j, j < k → ¬ RangeFails i q.arg j)

/-- R225: illegal commands are answered before the payload is looked at, and a payload of the wrong shape before its
range is looked at. -/
def Obligations.ErrorPriority : Prop :=
  ∀ (s t : State) (q : Req), s.blockTurn = some t → t.selected = some q →
    ((decode q.cmd).instr? = none → step s = .next (t.answer q ⟨.illegalCommand, 0, none⟩)) ∧
    ∀ i, decode q.cmd = .op i →
      (ShapeFails i q.arg → step s = .next (t.answer q ⟨.shapeError, 0, none⟩)) ∧
      (¬ ShapeFails i q.arg → ∀ k, RangeFails i q.arg k → (∀ j, j < k → ¬ RangeFails i q.arg j) →
        step s = .next (t.answer q ⟨.rangeError, k, none⟩))

/-- R224: the silent non-errors: W2L drops the trailing words of a partial chunk, BITS ignores the bits from position n
on, and a single-precision FENC always encodes; each responds OK. -/
def Obligations.SilentNonErrors : Prop :=
  (∀ (le ll : Bool) (s : State) (q : Req) (ws : List Word), s.selected = some q → q.arg = .pWords ws →
    tooLong ws.length = false →
    ∃ out, exec (.w2l le ll) s = .next (s.answer q ⟨.ok, 0, some (.pLongs out)⟩) ∧
      out = wordsToLongs le ll (ws.take (ws.length - ws.length % chunkSize ll))) ∧
  (∀ (n : BitVec 16) (s : State) (q : Req) (v : Nat), s.selected = some q → q.arg = .pNat v →
    ∃ out, exec (.bits n) s = .next (s.answer q ⟨.ok, 0, some (.pBools out)⟩) ∧
      out = bitsFromInt n.toNat (v % 2 ^ n.toNat)) ∧
  (∀ (s : State) (q : Req) (f : F64), s.selected = some q → q.arg = .pF64 f →
    ∃ p, exec (.fenc false) s = .next (s.answer q ⟨.ok, 0, some (.pPat p)⟩))

/-! ## Bit Vector Codec -/

/-- R100, R9: BITS answers the list of length n whose element i is bit i of the operand. -/
def Obligations.BitsAnswersTheLowBits : Prop :=
  ∀ (n : BitVec 16) (s : State) (q : Req) (v : Nat), s.selected = some q → q.arg = .pNat v →
    ∃ l, exec (.bits n) s = .next (s.answer q ⟨.ok, 0, some (.pBools l)⟩) ∧ l.length = n.toNat ∧
      ∀ i, i < n.toNat → l[i]? = some (decide (v / 2 ^ i % 2 = 1))

/-- R101, R9: BPACK answers the integer below 2^n whose bit i is element i of a list of n booleans, and SHAPE_ERROR for
a list of another length. -/
def Obligations.BpackAnswersTheInteger : Prop :=
  ∀ (n : BitVec 16) (s : State) (q : Req) (b : List Bool), s.selected = some q → q.arg = .pBools b →
    (b.length = n.toNat → tooLong b.length = false →
      ∃ v, exec (.bpack n) s = .next (s.answer q ⟨.ok, 0, some (.pNat v)⟩) ∧ v < 2 ^ n.toNat ∧
        ∀ i, i < n.toNat → b[i]? = some (decide (v / 2 ^ i % 2 = 1))) ∧
    (b.length ≠ n.toNat → exec (.bpack n) s = .next (s.answer q ⟨.shapeError, 0, none⟩))

/-- R102: the laws of the Bit Vector Codec: BPACK after BITS is the value modulo 2^n, BITS after BPACK is the list, and
BITS is a bijection from [0, 2^n - 1] onto the lists of length n. -/
def Obligations.BitVectorLaws : Prop :=
  ∀ n : Nat,
    (∀ v, intFromBits (bitsFromInt n v) = v % 2 ^ n) ∧
    (∀ b : List Bool, b.length = n → bitsFromInt n (intFromBits b) = b) ∧
    Set.BijOn (bitsFromInt n) { v | v < 2 ^ n } { b | b.length = n }

/-! ## Two's-Complement Codec -/

/-- R121: TCS on one integer. -/
def Obligations.TcsConvertsToSigned : Prop :=
  ∀ (n : BitVec 16) (s : State) (q : Req) (v : Int), s.selected = some q → q.arg = .pInt v →
    exec (.tcs n) s = .next (s.answer q
      (if v < 0 ∨ v > 2 ^ n.toNat - 1 then ⟨.rangeError, 0, none⟩
       else if v ≥ 2 ^ (n.toNat - 1) then ⟨.ok, 0, some (.pInt (v - 2 ^ n.toNat))⟩
       else ⟨.ok, 0, some (.pInt v)⟩))

/-- R122: TCU on one integer. -/
def Obligations.TcuConvertsToUnsigned : Prop :=
  ∀ (n : BitVec 16) (s : State) (q : Req) (v : Int), s.selected = some q → q.arg = .pInt v →
    exec (.tcu n) s = .next (s.answer q
      (if v < -2 ^ (n.toNat - 1) ∨ v > 2 ^ (n.toNat - 1) - 1 then ⟨.rangeError, 0, none⟩
       else if v < 0 then ⟨.ok, 0, some (.pInt (v + 2 ^ n.toNat))⟩
       else ⟨.ok, 0, some (.pInt v)⟩))

/-- R123: TC on one integer: a negative one as TCU does, any other as TCS does, over the domain
[-2^(n-1), 2^n - 1]. -/
def Obligations.TcConvertsToTheOtherReading : Prop :=
  ∀ (n : BitVec 16) (s : State) (q : Req) (v : Int), s.selected = some q → q.arg = .pInt v →
    exec (.tc n) s = .next (s.answer q
      (if v < -2 ^ (n.toNat - 1) ∨ v > 2 ^ n.toNat - 1 then ⟨.rangeError, 0, none⟩
       else if v < 0 then ⟨.ok, 0, some (.pInt (v + 2 ^ n.toNat))⟩
       else if v ≥ 2 ^ (n.toNat - 1) then ⟨.ok, 0, some (.pInt (v - 2 ^ n.toNat))⟩
       else ⟨.ok, 0, some (.pInt v)⟩))

/-- R124, R125: TCSL converts every element of a list in U(n), and otherwise names the first element outside it. -/
def Obligations.TcslConvertsAList : Prop :=
  ∀ (n : BitVec 16) (s : State) (q : Req) (l : List Int), s.selected = some q → q.arg = .pInts l →
    tooLong l.length = false →
    ((∀ v ∈ l, 0 ≤ v ∧ v ≤ 2 ^ n.toNat - 1) →
      exec (.tcsl n) s = .next (s.answer q ⟨.ok, 0, some (.pInts
        (l.map fun v => if v ≥ 2 ^ (n.toNat - 1) then v - 2 ^ n.toNat else v))⟩)) ∧
    (∀ pre v post, l = pre ++ v :: post → (∀ w ∈ pre, 0 ≤ w ∧ w ≤ 2 ^ n.toNat - 1) →
      (v < 0 ∨ v > 2 ^ n.toNat - 1) →
      exec (.tcsl n) s = .next (s.answer q ⟨.rangeError, pre.length, none⟩))

/-- R124, R126: TCUL converts every element of a list in S(n), and otherwise names the first element outside it. -/
def Obligations.TculConvertsAList : Prop :=
  ∀ (n : BitVec 16) (s : State) (q : Req) (l : List Int), s.selected = some q → q.arg = .pInts l →
    tooLong l.length = false →
    ((∀ v ∈ l, -2 ^ (n.toNat - 1) ≤ v ∧ v ≤ 2 ^ (n.toNat - 1) - 1) →
      exec (.tcul n) s = .next (s.answer q ⟨.ok, 0, some (.pInts
        (l.map fun v => if v < 0 then v + 2 ^ n.toNat else v))⟩)) ∧
    (∀ pre v post, l = pre ++ v :: post →
      (∀ w ∈ pre, -2 ^ (n.toNat - 1) ≤ w ∧ w ≤ 2 ^ (n.toNat - 1) - 1) →
      (v < -2 ^ (n.toNat - 1) ∨ v > 2 ^ (n.toNat - 1) - 1) →
      exec (.tcul n) s = .next (s.answer q ⟨.rangeError, pre.length, none⟩))

/-- R124, R127: TCL converts every element of a list in [-2^(n-1), 2^n - 1], each in its own direction, and otherwise
names the first element outside it. -/
def Obligations.TclConvertsAList : Prop :=
  ∀ (n : BitVec 16) (s : State) (q : Req) (l : List Int), s.selected = some q → q.arg = .pInts l →
    tooLong l.length = false →
    ((∀ v ∈ l, -2 ^ (n.toNat - 1) ≤ v ∧ v ≤ 2 ^ n.toNat - 1) →
      exec (.tcl n) s = .next (s.answer q ⟨.ok, 0, some (.pInts
        (l.map fun v => if v < 0 then v + 2 ^ n.toNat
          else if v ≥ 2 ^ (n.toNat - 1) then v - 2 ^ n.toNat else v))⟩)) ∧
    (∀ pre v post, l = pre ++ v :: post →
      (∀ w ∈ pre, -2 ^ (n.toNat - 1) ≤ w ∧ w ≤ 2 ^ n.toNat - 1) →
      (v < -2 ^ (n.toNat - 1) ∨ v > 2 ^ n.toNat - 1) →
      exec (.tcl n) s = .next (s.answer q ⟨.rangeError, pre.length, none⟩))

/-- R128: the laws of the Two's-Complement Codec at every width n ≥ 1: the three round trips, the congruences modulo
2^n, TCS is sign extension (R11), results lie in S(n) and U(n), and a value outside the domain fails: nothing wraps. -/
def Obligations.TwosComplementLaws : Prop :=
  ∀ n : Nat, 1 ≤ n →
    (∀ v : Int, 0 ≤ v → v ≤ 2 ^ n - 1 → (toSigned n v).bind (toUnsigned n) = some v) ∧
    (∀ v : Int, -2 ^ (n - 1) ≤ v → v ≤ 2 ^ (n - 1) - 1 → (toUnsigned n v).bind (toSigned n) = some v) ∧
    (∀ v : Int, -2 ^ (n - 1) ≤ v → v ≤ 2 ^ n - 1 → (toOther n v).bind (toOther n) = some v) ∧
    (∀ v r : Int, toSigned n v = some r ∨ toUnsigned n v = some r → r ≡ v [ZMOD 2 ^ n]) ∧
    (∀ v : BitVec n, toSigned n v.toNat = some v.toInt) ∧
    (∀ v r : Int, toSigned n v = some r → -2 ^ (n - 1) ≤ r ∧ r ≤ 2 ^ (n - 1) - 1) ∧
    (∀ v r : Int, toUnsigned n v = some r → 0 ≤ r ∧ r ≤ 2 ^ n - 1) ∧
    (∀ v : Int, v < 0 ∨ v > 2 ^ n - 1 → toSigned n v = none) ∧
    (∀ v : Int, v < -2 ^ (n - 1) ∨ v > 2 ^ (n - 1) - 1 → toUnsigned n v = none) ∧
    (∀ v : Int, v < -2 ^ (n - 1) ∨ v > 2 ^ n - 1 → toOther n v = none)

/-! ## Word Aggregator -/

/-- R150 to R152: W2L answers one value for each whole chunk, the sum of the chunk's words by their weights, the first
word being the most significant (LE = 0) or the least significant (LE = 1); in long mode it is below 2^32. -/
def Obligations.W2lJoinsTheChunks : Prop :=
  ∀ (le ll : Bool) (s : State) (q : Req) (ws : List Word), s.selected = some q → q.arg = .pWords ws →
    tooLong ws.length = false →
    ∃ out, exec (.w2l le ll) s = .next (s.answer q ⟨.ok, 0, some (.pLongs out)⟩) ∧
      out.length = ws.length / (if ll then 4 else 2) ∧
      (∀ (j : Nat) (x : Long), out[j]? = some x →
        x.toNat = ((List.range (if ll then 4 else 2)).map fun t =>
          (ws.getD (j * (if ll then 4 else 2) + t) 0).toNat *
            2 ^ (if le then 16 * t else 16 * ((if ll then 4 else 2) - 1 - t))).sum) ∧
      (ll = false → ∀ x ∈ out, x.toNat < 2 ^ 32)

/-- R150, R151, R153: L2W answers the words of each value in the order LE asks for; in long mode the first value not
below 2^32 makes it a RANGE_ERROR with that value's position. -/
def Obligations.L2wSplitsTheLongs : Prop :=
  ∀ (le ll : Bool) (s : State) (q : Req) (xs : List Long), s.selected = some q → q.arg = .pLongs xs →
    tooLong xs.length = false →
    ((ll = false → ∀ x ∈ xs, x.toNat < 2 ^ 32) →
      ∃ out, exec (.l2w le ll) s = .next (s.answer q ⟨.ok, 0, some (.pWords out)⟩) ∧
        out.length = (if ll then 4 else 2) * xs.length ∧
        ∀ (j t : Nat) (x : Long), xs[j]? = some x → t < (if ll then 4 else 2) →
          ∃ w, out[(if ll then 4 else 2) * j + t]? = some w ∧
            w.toNat = x.toNat / 2 ^ (if le then 16 * t else 16 * ((if ll then 4 else 2) - 1 - t)) % 2 ^ 16) ∧
    (∀ pre x post, ll = false → xs = pre ++ x :: post → (∀ y ∈ pre, y.toNat < 2 ^ 32) → 2 ^ 32 ≤ x.toNat →
      exec (.l2w le ll) s = .next (s.answer q ⟨.rangeError, pre.length, none⟩))

/-- R154: joining what was split gives the list back; splitting what was joined gives the words back without the partial
chunk, so it is the identity exactly on the lists of whole chunks. -/
def Obligations.WordAggregatorLaws : Prop :=
  ∀ le ll : Bool,
    (∀ xs : List Long, (ll = false → ∀ x ∈ xs, x.toNat < 2 ^ 32) →
      ∃ ws, longsToWordsFrom le ll 0 xs = .ok ws ∧ wordsToLongs le ll ws = xs) ∧
    (∀ ws : List Word,
      longsToWordsFrom le ll 0 (wordsToLongs le ll ws) =
        .ok (ws.take (ws.length - ws.length % (if ll then 4 else 2)))) ∧
    (∀ ws : List Word,
      longsToWordsFrom le ll 0 (wordsToLongs le ll ws) = .ok ws ↔ ws.length % (if ll then 4 else 2) = 0)

/-! ## IEEE-754 Codec -/

/-- R182, R183, R185: the NaN tests are the NaN cases of the values, and the NaNs that may be drawn are exactly the
binary64 NaNs. -/
def Obligations.NaNsAreTheNaNPatterns : Prop :=
  (∀ q : BitVec 32, isNaN32 q = true ↔ value32 q = .nan) ∧
  (∀ p : BitVec 64, isNaN64 p = true ↔ value64 p = .nan) ∧
  (∀ p : BitVec 64, isNaN64 p = true ↔ ∃ x : NaN64, nanBits x = p)

/-- R187: widening is exact, sign of zero and infinity included. Values are in units of 2^-1074 (log entry 10). -/
def Obligations.WideningIsExact : Prop :=
  ∀ q : BitVec 32, isNaN32 q = false → value64 (widen32 q) = value32 q

/-- R188: a finite datum below 2^128 - 2^103 narrows to a finite pattern of its sign that no finite binary32 value lies
closer to, and where another lies as close the fraction is even; from 2^128 - 2^103 on it narrows to infinity of its
sign, and infinity to itself. Magnitudes are in units of 2^-1074, the model's form of R188's rationals (log entry 10). -/
def Obligations.NarrowingIsToNearestEven : Prop :=
  ∀ f : F64, isNaN64 f = false →
    (exponent64 f = 0x7FF → value32 (narrow64 f) = .infinity (sign64 f)) ∧
    (exponent64 f ≠ 0x7FF → 2 ^ 1202 - 2 ^ 1177 ≤ units64 f → value32 (narrow64 f) = .infinity (sign64 f)) ∧
    (exponent64 f ≠ 0x7FF → units64 f < 2 ^ 1202 - 2 ^ 1177 →
      ∃ r, value32 (narrow64 f) = .finite (sign64 f) r ∧
        ∀ q : BitVec 32, exponent32 q ≠ 0xFF →
          Nat.dist r (units64 f) ≤ Nat.dist (units32 q) (units64 f) ∧
          (Nat.dist r (units64 f) = Nat.dist (units32 q) (units64 f) → units32 q ≠ r →
            fraction32 (narrow64 f) % 2 = 0))

/-- R188: underflow: a magnitude up to 2^-150 becomes a zero of its sign, one between 2^-150 and 2^-149 the smallest
subnormal of its sign. Magnitudes are in units of 2^-1074 (log entry 10). -/
def Obligations.NarrowingUnderflow : Prop :=
  ∀ f : F64, exponent64 f ≠ 0x7FF →
    (units64 f ≤ 2 ^ 924 → narrow64 f = pack32 (sign64 f) 0 0) ∧
    (2 ^ 924 < units64 f → units64 f < 2 ^ 925 → narrow64 f = pack32 (sign64 f) 0 1)

/-- R189 at double precision: a pattern that is not a NaN is returned as the datum with these bits. -/
def Obligations.FdecDoubleReturnsTheDatum : Prop :=
  ∀ (s : State) (q : Req) (p : BitVec 64), s.selected = some q → q.arg = .pPat p → isNaN64 p = false →
    exec (.fdec true) s = .next (s.answer q ⟨.ok, 0, some (.pF64 p)⟩)

/-- R187, R189 at single precision: a 32-bit pattern that is not a NaN gives the datum of the same value, and a pattern
with a bit of 63:32 set is a RANGE_ERROR. -/
def Obligations.FdecSingleReturnsTheValue : Prop :=
  (∀ (s : State) (q : Req) (p : BitVec 32), s.selected = some q → q.arg = .pPat (p.setWidth 64) →
    isNaN32 p = false →
    ∃ f, exec (.fdec false) s = .next (s.answer q ⟨.ok, 0, some (.pF64 f)⟩) ∧ value64 f = value32 p) ∧
  ∀ (s : State) (q : Req) (p : BitVec 64), s.selected = some q → q.arg = .pPat p → 2 ^ 32 ≤ p.toNat →
    exec (.fdec false) s = .next (s.answer q ⟨.rangeError, 0, none⟩)

/-- R189: a NaN pattern at either precision gives some binary64 NaN. The NaN is a free value (log entry 3): nothing more
is said of it. -/
def Obligations.FdecOfANaNReturnsANaN : Prop :=
  (∀ (s : State) (q : Req) (p : BitVec 64), s.selected = some q → q.arg = .pPat p → isNaN64 p = true →
    ∃ f, exec (.fdec true) s = .next (s.answer q ⟨.ok, 0, some (.pF64 f)⟩) ∧ isNaN64 f = true) ∧
  ∀ (s : State) (q : Req) (p : BitVec 32), s.selected = some q → q.arg = .pPat (p.setWidth 64) →
    isNaN32 p = true →
    ∃ f, exec (.fdec false) s = .next (s.answer q ⟨.ok, 0, some (.pF64 f)⟩) ∧ isNaN64 f = true

/-- R184, R190: FENC of a NaN, whatever its sign and payload, is the canonical quiet NaN of the precision asked for; of
any other datum it is the datum's own bits at double precision and the narrowed pattern at single precision. -/
def Obligations.FencReturnsThePattern : Prop :=
  ∀ (s : State) (q : Req) (f : F64), s.selected = some q → q.arg = .pF64 f →
    exec (.fenc true) s = .next (s.answer q ⟨.ok, 0, some (.pPat
      (if isNaN64 f then 0x7FF8000000000000 else f))⟩) ∧
    exec (.fenc false) s = .next (s.answer q ⟨.ok, 0, some (.pPat
      (if isNaN64 f then 0x7FC00000 else (narrow64 f).setWidth 64))⟩)

/-- R191: encoding what was decoded: the pattern itself where it is not a NaN, the canonical pattern where it is. -/
def Obligations.EncodeAfterDecode : Prop :=
  ∀ nan : NaN64,
    (∀ p : BitVec 64, ∃ f, decodeFloat true nan p = some f ∧
      encodeFloat true f = if isNaN64 p then 0x7FF8000000000000 else p) ∧
    (∀ q : BitVec 32, ∃ f, decodeFloat false nan (q.setWidth 64) = some f ∧
      encodeFloat false f = if isNaN32 q then 0x7FC00000 else q.setWidth 64)

/-- R191: decoding what was encoded: a datum whose value is exactly representable at the precision comes back itself,
infinities and signed zeros included, and a NaN comes back as a NaN. -/
def Obligations.DecodeAfterEncode : Prop :=
  ∀ (dp : Bool) (nan : NaN64) (f : F64),
    (isNaN64 f = false → (dp = false → ∃ q : BitVec 32, value32 q = value64 f) →
      decodeFloat dp nan (encodeFloat dp f) = some f) ∧
    (isNaN64 f = true → ∃ g, decodeFloat dp nan (encodeFloat dp f) = some g ∧ isNaN64 g = true)

/-! ## The assembler -/

/-- R77: an omitted modifier assembles as the source's default, whether or not the other group's modifier is given. -/
def Obligations.AssemblerDefaults : Prop :=
  ∀ o : AsmOperand,
    (∀ m ∈ [Mnemonic.bits, .bpack, .tcs, .tcu, .tc, .tcsl, .tcul, .tcl],
      assemble ⟨m, [], o⟩ = assemble ⟨m, [.w 16], o⟩) ∧
    (∀ m ∈ [Mnemonic.w2l, .l2w],
      assemble ⟨m, [], o⟩ = assemble ⟨m, [.be, .l], o⟩ ∧
      assemble ⟨m, [.be], o⟩ = assemble ⟨m, [.be, .l], o⟩ ∧ assemble ⟨m, [.le], o⟩ = assemble ⟨m, [.le, .l], o⟩ ∧
      assemble ⟨m, [.l], o⟩ = assemble ⟨m, [.be, .l], o⟩ ∧ assemble ⟨m, [.ll], o⟩ = assemble ⟨m, [.be, .ll], o⟩) ∧
    (∀ m ∈ [Mnemonic.fdec, .fenc], assemble ⟨m, [], o⟩ = assemble ⟨m, [.sp], o⟩)

/-- R76: what the assembler accepts is a legal command word beside a payload of the kind the operation takes. -/
def Obligations.AssembledCommandsAreLegal : Prop :=
  ∀ (a : AsmLine) (cmd : Command) (p : Payload), assemble a = .ok (cmd, p) →
    ∃ i, decode cmd = .op i ∧ payloadKind p = argKind i

/-- R61, R76: every well-formed instruction is spelled by its own mnemonic (the letters R61 gives it) and the modifiers of
its fields, none of them from a group it does not read, and with an operand that has a payload of its kind the line
assembles to its command word beside that payload. -/
def Obligations.EveryInstructionCanBeSpelled : Prop :=
  ∀ i : Instr, i.WellFormed →
    readMnemonic (instrMnemonicText i) = some (instrMnemonic i) ∧
    (∃ g, gatherModifiers {} (instrModifiers i) = some g ∧ asmInstr (instrMnemonic i) g = .ok i) ∧
    ∀ (o : AsmOperand) (p : Payload), asmPayload (argKind i) o = some p →
      assemble ⟨instrMnemonic i, instrModifiers i, o⟩ = .ok (encode i, p)

/-- R78, R77: the source's operation names assemble to the one command they expand to, with an omitted trailing argument
at its default. -/
def Obligations.ShorthandsAssemble : Prop :=
  ∀ (v : Int) (k : Nat) (n : BitVec 16), legalWidth n = true →
    assemble (expandShorthand (.bitsFromInt (.ofNat k) (some n.toNat))) = .ok (encode (.bits n), .pNat k) ∧
    assemble (expandShorthand (.bitsFromInt (.ofNat k) none)) = .ok (encode (.bits 16), .pNat k) ∧
    assemble (expandShorthand (.toSigned v (some n.toNat))) = .ok (encode (.tcs n), .pInt v) ∧
    assemble (expandShorthand (.toSigned v none)) = .ok (encode (.tcs 16), .pInt v) ∧
    assemble (expandShorthand (.toUnsigned v (some n.toNat))) = .ok (encode (.tcu n), .pInt v) ∧
    assemble (expandShorthand (.toUnsigned v none)) = .ok (encode (.tcu 16), .pInt v) ∧
    (∀ (ws : List Word) (be ll : Bool),
      assemble (expandShorthand (.wordsToLongs (ws.map fun w => Int.ofNat w.toNat) (some be) (some ll))) =
        .ok (encode (.w2l (!be) ll), .pWords ws) ∧
      assemble (expandShorthand (.wordsToLongs (ws.map fun w => Int.ofNat w.toNat) (some be) none)) =
        .ok (encode (.w2l (!be) false), .pWords ws) ∧
      assemble (expandShorthand (.wordsToLongs (ws.map fun w => Int.ofNat w.toNat) none none)) =
        .ok (encode (.w2l false false), .pWords ws)) ∧
    (∀ (xs : List Long) (be ll : Bool),
      assemble (expandShorthand (.longsToWords (xs.map fun x => Int.ofNat x.toNat) (some be) (some ll))) =
        .ok (encode (.l2w (!be) ll), .pLongs xs) ∧
      assemble (expandShorthand (.longsToWords (xs.map fun x => Int.ofNat x.toNat) (some be) none)) =
        .ok (encode (.l2w (!be) false), .pLongs xs) ∧
      assemble (expandShorthand (.longsToWords (xs.map fun x => Int.ofNat x.toNat) none none)) =
        .ok (encode (.l2w false false), .pLongs xs)) ∧
    (∀ (p : BitVec 64) (dp : Bool),
      assemble (expandShorthand (.decodeFloat p.toNat (some dp))) = .ok (encode (.fdec dp), .pPat p) ∧
      assemble (expandShorthand (.decodeFloat p.toNat none)) = .ok (encode (.fdec false), .pPat p)) ∧
    (∀ (f : F64) (dp : Bool),
      assemble (expandShorthand (.encodeFloat (.raw f.toNat) (some dp))) = .ok (encode (.fenc dp), .pF64 f) ∧
      assemble (expandShorthand (.encodeFloat (.raw f.toNat) none)) = .ok (encode (.fenc false), .pF64 f)) ∧
    (∀ (lit : FloatLit) (f : F64) (dp : Bool), floatLitBits lit = some f →
      assemble (expandShorthand (.encodeFloat lit (some dp))) = .ok (encode (.fenc dp), .pF64 f) ∧
      assemble (expandShorthand (.encodeFloat lit none)) = .ok (encode (.fenc false), .pF64 f))
end

