-- ==== Sys2Proof/Laws/Asm.lean ====
section
/-! SUPPORT. What the assembler's functions do, said once: a line, a width modifier, a literal that fits. -/

namespace Sys2Proof.Machine

/-- A line whose modifiers and operand are accepted assembles to the command word and the payload (R76). -/
theorem assemble_of {a : AsmLine} {g : Modifiers} {i : Instr} {p : Payload}
    (hg : gatherModifiers {} a.modifiers = some g) (hi : asmInstr a.mnemonic g = .ok i)
    (hp : asmPayload (argKind i) a.operand = some p) : assemble a = .ok (encode i, p) := by
  simp [assemble, hg, hi, hp]

/-- A width modifier alone, of a legal width, gives the operation that width (R76). -/
theorem asmWidthOp_of_legal (op : BitVec 16 → Instr) {n : BitVec 16} (h : legalWidth n = true) :
    asmWidthOp op { width := some n.toNat } = .ok (op n) := by
  simp [legalWidth] at h
  simp [asmWidthOp]
  omega

/-- An `n`-bit value, as an integer, fits `n` bits and is that value. -/
@[simp] theorem fitBits_toNat {n : Nat} (b : BitVec n) : fitBits n (Int.ofNat b.toNat) = some b := by
  simp [fitBits, b.isLt]

/-- So does a list of them. -/
theorem mapM_fitBits_toNat {n : Nat} (l : List (BitVec n)) :
    (l.map fun b => Int.ofNat b.toNat).mapM (fitBits n) = some l := by
  induction l with
  | nil => rfl
  | cons b l ih =>
    rw [List.map_cons, List.mapM_cons, ih, fitBits_toNat]
    rfl

end Sys2Proof.Machine
end

