-- ==== Sys2Proof/Laws/Codec.lean ====
section
/-! SUPPORT. Small lemmas of the operands and of the codecs' definitions: parameter ranges, length bound, domains, the
list form. -/

namespace Sys2Proof.Machine

/-- NMAX is at least 32 (R8). -/
theorem nmax_ge : 32 ≤ Config.nmax := Nat.le_add_left _ _

/-- NMAX is at most 65535 (R8). -/
theorem nmax_le : Config.nmax ≤ 65535 := by
  have := Config.nmaxSlack.isLt
  unfold Config.nmax
  omega

/-- A list is too long exactly when LMAX is a number below its length (R74). -/
theorem tooLong_iff (len : Nat) : tooLong len = true ↔ ∃ m, Config.lmax = some m ∧ m < len := by
  unfold tooLong Config.lmax
  cases Config.lmaxBounded <;> simp

/-- LMAX is at least 1, so no list of at most one element is too long (R8). -/
theorem tooLong_of_le_one {len : Nat} (h : len ≤ 1) : tooLong len = false := by
  have : ¬ Config.lmaxBelow + 1 < len := by omega
  simp [tooLong, this]

/-- A bounded list operand within LMAX is the list. -/
theorem boundedList_of_fits {α : Type} {l : List α} (h : tooLong l.length = false) : boundedList l = some l := by
  simp [boundedList, h]

/-- `2^n` is the integer power (R11). -/
theorem twoPow_eq (n : Nat) : twoPow n = 2 ^ n := by
  simp [twoPow]

/-- `U(n)` (R120). -/
theorem inUnsigned_iff (n : Nat) (v : Int) : inUnsigned n v = true ↔ 0 ≤ v ∧ v ≤ 2 ^ n - 1 := by
  simp [inUnsigned, twoPow_eq]

/-- `S(n)` (R120). -/
theorem inSigned_iff (n : Nat) (v : Int) :
    inSigned n v = true ↔ -2 ^ (n - 1) ≤ v ∧ v ≤ 2 ^ (n - 1) - 1 := by
  simp [inSigned, twoPow_eq]

/-- The list form answers a list exactly when every element converts, element by element (R124). -/
theorem listMapFrom_ok_iff (f : Int → Option Int) (i : Nat) (l out : List Int) :
    listMapFrom f i l = .ok out ↔ l.map f = out.map some := by
  induction l generalizing i out with
  | nil => cases out <;> simp [listMapFrom]
  | cons v rest ih =>
    unfold listMapFrom
    cases hv : f v with
    | none => cases out <;> simp [hv]
    | some r =>
      cases hr : listMapFrom f (i + 1) rest with
      | error j =>
        have hne : ∀ o : List Int, rest.map f ≠ o.map some := fun o ho => by
          have := (ih (i + 1) o).2 ho
          rw [hr] at this
          cases this
        cases out with
        | nil => simp
        | cons o os => simpa [hv] using fun _ => hne os
      | ok o' =>
        have ho' := (ih (i + 1) o').1 hr
        cases out with
        | nil => simp
        | cons o os =>
          have hinj : o'.map some = os.map some ↔ o' = os := by
            constructor
            · intro h
              exact List.map_injective_iff.2 (Option.some_injective Int) h
            · rintro rfl; rfl
          simp [hv, ho', hinj]

/-- The list form names the first element that does not convert (R124). -/
theorem listMapFrom_error (f : Int → Option Int) (i : Nat) (pre post : List Int) (v : Int)
    (h : ∀ w ∈ pre, ∃ r, f w = some r) (hv : f v = none) :
    listMapFrom f i (pre ++ v :: post) = .error (i + pre.length) := by
  induction pre generalizing i with
  | nil => simp [listMapFrom, hv]
  | cons p ps ih =>
    obtain ⟨r, hr⟩ := h p (by simp)
    simp [listMapFrom, hr, ih (i + 1) (fun w hw => h w (by simp [hw]))]
    omega

end Sys2Proof.Machine
end

