-- ==== Sys2Proof/Laws/Decode.lean ====
section
/-! SUPPORT. The layout of the command word: its value, and its fields read back. -/

namespace Sys2Proof

/-- The value of a command word, field by field (R60). -/
theorem layout_toNat (w : BitVec 16) (dp ll le : Bool) (opc : BitVec 4) :
    (layout w dp ll le opc).toNat =
      w.toNat * 65536 + dp.toNat * 64 + ll.toNat * 32 + le.toNat * 16 + opc.toNat := by
  have h1 := opc.isLt
  have h2 := Bool.toNat_lt le
  have h3 := Bool.toNat_lt ll
  have h4 := Bool.toNat_lt dp
  simp only [layout, BitVec.toNat_append, BitVec.toNat_ofBool]
  rw [← Nat.shiftLeft_add_eq_or_of_lt h1, ← Nat.shiftLeft_add_eq_or_of_lt (by omega),
    ← Nat.shiftLeft_add_eq_or_of_lt (by omega), ← Nat.shiftLeft_add_eq_or_of_lt (by omega),
    ← Nat.shiftLeft_add_eq_or_of_lt (by decide)]
  simp only [Nat.shiftLeft_eq, BitVec.toNat_ofNat]
  omega

/-- The fields of a laid-out word are the fields it was laid out from, with RSV 0 (R60, R65). -/
theorem fieldsOf_layout (w : BitVec 16) (dp ll le : Bool) (opc : BitVec 4) :
    fieldsOf (layout w dp ll le opc) = ⟨w, 0, dp, ll, le, opc⟩ := by
  have h1 := opc.isLt
  have h0 := w.isLt
  simp only [fieldsOf, Fields.mk.injEq]
  refine ⟨?_, ?_, ?_, ?_, ?_, ?_⟩
  case refine_1 | refine_2 | refine_6 =>
    apply BitVec.eq_of_toNat_eq
    simp only [BitVec.extractLsb'_toNat, layout_toNat, Nat.shiftRight_eq_div_pow]
    cases dp <;> cases ll <;> cases le <;> simp <;> omega
  all_goals
    simp only [BitVec.getLsbD, layout_toNat, Nat.testBit_eq_decide_div_mod_eq]
    cases dp <;> cases ll <;> cases le <;> simp <;> omega

/-- A legal width is between 1 and NMAX. -/
theorem legalWidth_iff (n : BitVec 16) : legalWidth n = true ↔ 1 ≤ n.toNat ∧ n.toNat ≤ Config.nmax := by
  simp [legalWidth]

end Sys2Proof
end

