-- ==== Sys2Proof/Laws/State.lean ====
section
/-! SUPPORT. One lemma for each field of each update of State, and the fields of State.reset. -/

namespace Sys2Proof.Machine

@[simp] theorem answer_schedule (s : State) (q : Req) (r : Resp) : (s.answer q r).schedule = s.schedule := rfl
@[simp] theorem answer_inFlight (s : State) (q : Req) (r : Resp) :
    (s.answer q r).inFlight = removeOldest q.rq s.inFlight := rfl
@[simp] theorem answer_delivered (s : State) (q : Req) (r : Resp) :
    (s.answer q r).delivered = s.delivered ++ [⟨q, r⟩] := rfl
@[simp] theorem answer_draws (s : State) (q : Req) (r : Resp) : (s.answer q r).draws = s.draws + 1 := rfl
@[simp] theorem answer_abandoned (s : State) (q : Req) (r : Resp) : (s.answer q r).abandoned = s.abandoned := rfl

@[simp] theorem popTurn_schedule (s : State) : s.popTurn.schedule = s.schedule.tail := rfl
@[simp] theorem popTurn_inFlight (s : State) : s.popTurn.inFlight = s.inFlight := rfl
@[simp] theorem popTurn_delivered (s : State) : s.popTurn.delivered = s.delivered := rfl
@[simp] theorem popTurn_draws (s : State) : s.popTurn.draws = s.draws := rfl
@[simp] theorem popTurn_abandoned (s : State) : s.popTurn.abandoned = s.abandoned := rfl
@[simp] theorem popTurn_selected (s : State) : s.popTurn.selected = s.selected := rfl

@[simp] theorem resetTurn_schedule (s : State) : s.resetTurn.schedule = s.schedule := rfl
@[simp] theorem resetTurn_inFlight (s : State) : s.resetTurn.inFlight = [] := rfl
@[simp] theorem resetTurn_delivered (s : State) : s.resetTurn.delivered = s.delivered := rfl
@[simp] theorem resetTurn_draws (s : State) : s.resetTurn.draws = s.draws := rfl
@[simp] theorem resetTurn_abandoned (s : State) : s.resetTurn.abandoned = s.abandoned ++ s.inFlight := rfl

@[simp] theorem placeCommand_schedule (s : State) (c : Command) : (s.placeCommand c).schedule = [] := rfl
@[simp] theorem placeCommand_delivered (s : State) (c : Command) : (s.placeCommand c).delivered = s.delivered := rfl
@[simp] theorem placeCommand_draws (s : State) (c : Command) : (s.placeCommand c).draws = s.draws := rfl
@[simp] theorem placeCommand_abandoned (s : State) (c : Command) : (s.placeCommand c).abandoned = s.abandoned := rfl

@[simp] theorem reset_schedule : State.reset.schedule = [] := rfl
@[simp] theorem reset_inFlight : State.reset.inFlight = [] := rfl
@[simp] theorem reset_delivered : State.reset.delivered = [] := rfl
@[simp] theorem reset_abandoned : State.reset.abandoned = [] := rfl
@[simp] theorem reset_draws : State.reset.draws = 0 := rfl

@[simp] theorem popTurn_unanswered (s : State) : s.popTurn.unanswered = s.unanswered := rfl
@[simp] theorem resetTurn_unanswered (s : State) : s.resetTurn.unanswered = s.unanswered := by
  simp [State.unanswered]
@[simp] theorem reset_unanswered : State.reset.unanswered = [] := rfl

/-- A response given to the same request in the same state is read back from the state after it. -/
theorem answer_inj {s : State} {q : Req} {r r' : Resp} (h : s.answer q r = s.answer q r') : r = r' := by
  have h' := congrArg State.delivered h
  simpa using h'

end Sys2Proof.Machine
end

