-- ==== Sys2Proof/Laws/Ops.lean ====
section
/-! SUPPORT. What each shared operation can do, said once: choosing the request served, giving a response, serving,
taking a turn, a run's first step. -/

namespace Sys2Proof.Machine

/-- A candidate is a request in flight. -/
theorem mem_of_mem_oldestEach {q : Req} {l : List Req} (h : q ∈ oldestEach l) : q ∈ l := by
  induction l with
  | nil => exact h
  | cons p rest ih =>
    rcases List.mem_cons.1 h with rfl | h'
    · exact List.mem_cons_self
    · exact List.mem_cons_of_mem _ (ih (List.mem_filter.1 h').1)

/-- A choice is one of the candidates. -/
theorem mem_of_pickOne {c : Nat} {l : List Req} {q : Req} (h : pickOne c l = some q) : q ∈ l := by
  match l with
  | [] => simp [pickOne] at h
  | [p] => simp [pickOne] at h; simp [h]
  | p :: r :: rest => exact List.mem_of_getElem? h

/-- Where there is a candidate, one is chosen. -/
theorem pickOne_isSome {c : Nat} {l : List Req} (h : l ≠ []) : ∃ q, pickOne c l = some q := by
  match l with
  | [] => exact absurd rfl h
  | [p] => exact ⟨p, rfl⟩
  | p :: r :: rest =>
    have hc : c % (rest.length + 2) < (p :: r :: rest).length := by
      simpa using Nat.mod_lt c (Nat.succ_pos (rest.length + 1))
    exact ⟨_, List.getElem?_eq_getElem hc⟩

/-- The request served next is in flight. -/
theorem selected_mem {s : State} {q : Req} (h : s.selected = some q) : q ∈ s.inFlight :=
  mem_of_mem_oldestEach (mem_of_pickOne h)

/-- A candidate is the first of its requester's requests in flight: its oldest (R32). -/
theorem find_of_mem_oldestEach {q : Req} {l : List Req} (h : q ∈ oldestEach l) :
    l.find? (fun p => p.rq == q.rq) = some q := by
  induction l with
  | nil => simp [oldestEach] at h
  | cons p rest ih =>
    rcases List.mem_cons.1 h with rfl | h'
    · simp
    · obtain ⟨h1, h2⟩ := List.mem_filter.1 h'
      have hne : (p.rq == q.rq) = false := by
        rw [Bool.eq_false_iff]; intro e; rw [beq_iff_eq] at e; simp [e] at h2
      simp [hne, ih h1]

/-- The request served next is the oldest its requester has in flight (R32). -/
theorem selected_find {s : State} {q : Req} (h : s.selected = some q) :
    s.inFlight.find? (fun p => p.rq == q.rq) = some q :=
  find_of_mem_oldestEach (mem_of_pickOne h)

/-- Answering the request served next takes that one, and no other, out of the requests in flight. -/
theorem selected_perm {s : State} {q : Req} (h : s.selected = some q) :
    s.inFlight.Perm (q :: removeOldest q.rq s.inFlight) := by
  have hf := selected_find h
  generalize s.inFlight = l at hf
  clear h
  induction l with
  | nil => simp at hf
  | cons p rest ih =>
    by_cases hp : (p.rq == q.rq) = true
    · simp [hp] at hf
      subst hf; simp [removeOldest]
    · have hp' : (p.rq == q.rq) = false := by simpa using hp
      simp only [List.find?_cons, hp'] at hf
      have := (ih hf).cons p
      simp only [removeOldest, List.eraseP_cons, hp', cond_false]
      exact this.trans (List.Perm.swap _ _ _)

/-- With one request in flight, that one is served next, whatever the free choice. -/
theorem selected_of_single {s : State} {q : Req} (h : s.inFlight = [q]) : s.selected = some q := by
  simp [State.selected, h, oldestEach, pickOne]

/-- Nothing is served exactly when nothing is in flight. -/
theorem selected_eq_none {s : State} : s.selected = none ↔ s.inFlight = [] := by
  constructor
  · intro h
    cases hl : s.inFlight with
    | nil => rfl
    | cons p rest =>
      obtain ⟨q, hq⟩ := pickOne_isSome (c := Config.serviceChoice s.draws) (l := oldestEach s.inFlight)
        (by simp [hl, oldestEach])
      rw [State.selected, hq] at h
      cases h
  · intro h
    simp [State.selected, h, oldestEach, pickOne]

/-- `respond` with a request to serve: that request is answered. -/
theorem respond_of_selected {s : State} {q : Req} (h : s.selected = some q) (op : Payload → Resp) :
    s.respond op = .next (s.answer q (op q.arg)) := by
  simp [State.respond, h]

/-- `respond` with nothing to serve. -/
theorem respond_of_none {s : State} (h : s.selected = none) (op : Payload → Resp) : s.respond op = .next s := by
  simp [State.respond, h]

/-- Every meaning is `respond` of the operation's response, with the NaN drawn at the state's counter. -/
theorem exec_eq_respond (i : Instr) (s : State) :
    exec i s = s.respond (i.response (Config.nanDraw s.draws)) := by
  cases i <;> rfl

/-- An instruction with a request to serve answers that request and does nothing else. -/
theorem exec_of_selected {s : State} {q : Req} (h : s.selected = some q) (i : Instr) :
    exec i s = .next (s.answer q (i.response (Config.nanDraw s.draws) q.arg)) := by
  rw [exec_eq_respond, respond_of_selected h]

/-- Serving with a request in flight: one is answered, with the response `Exec` gives it. -/
theorem serve_of_selected {s : State} {q : Req} (h : s.selected = some q) :
    serve s = .next (s.answer q (execResponse q.cmd q.arg (Config.nanDraw s.draws))) := by
  cases hd : decode q.cmd with
  | illegal w => simp [serve, execResponse, h, hd]
  | op i => simpa [serve, execResponse, h, hd] using exec_of_selected h i

/-- Serving with nothing in flight. -/
theorem serve_of_none {s : State} (h : s.selected = none) : serve s = .next s := by
  simp [serve, h]

/-- Serving is one of the two. -/
theorem serve_cases (s : State) :
    (s.selected = none ∧ serve s = .next s) ∨
    ∃ q, s.selected = some q ∧
      serve s = .next (s.answer q (execResponse q.cmd q.arg (Config.nanDraw s.draws))) := by
  cases h : s.selected with
  | none => exact .inl ⟨rfl, serve_of_none h⟩
  | some q => exact .inr ⟨q, rfl, serve_of_selected h⟩

/-- Issuing a request of one of the K requesters. -/
theorem issue_of_lt {s : State} {q : Req} (h : q.rq < Config.requesters) :
    s.issue q = .next { s with inFlight := s.inFlight ++ [q] } := by
  simp [State.issue, h]

/-- Issuing a request of no requester. -/
theorem issue_of_ge {s : State} {q : Req} (h : Config.requesters ≤ q.rq) : s.issue q = .refused .noSuchRequester := by
  simp [State.issue, Nat.not_lt.2 h]

/-- Everything a step can do when it answers a next state. -/
theorem step_cases {s s' : State} (h : step s = .next s') :
    (∃ t, s.blockTurn = some t ∧ t.selected = none ∧ s' = t) ∨
    (∃ t q, s.blockTurn = some t ∧ t.selected = some q ∧
      s' = t.answer q (execResponse q.cmd q.arg (Config.nanDraw t.draws))) ∨
    (∃ q rest, s.schedule = .issue q :: rest ∧ q.rq < Config.requesters ∧
      s' = { s with schedule := rest, inFlight := s.inFlight ++ [q] }) ∨
    (∃ rest, s.schedule = .reset :: rest ∧ s' = { s with schedule := rest, inFlight := [], abandoned := s.abandoned ++ s.inFlight }) := by
  have block : ∀ t, s.blockTurn = some t → serve t = .next s' →
      (∃ t, s.blockTurn = some t ∧ t.selected = none ∧ s' = t) ∨
      (∃ t q, s.blockTurn = some t ∧ t.selected = some q ∧
        s' = t.answer q (execResponse q.cmd q.arg (Config.nanDraw t.draws))) := by
    intro t ht hs
    rcases serve_cases t with ⟨hn, he⟩ | ⟨q, hq, he⟩
    · rw [he] at hs
      exact .inl ⟨t, ht, hn, (Host.Outcome.next.inj hs).symm⟩
    · rw [he] at hs
      exact .inr ⟨t, q, ht, hq, (Host.Outcome.next.inj hs).symm⟩
  unfold step takeTurn at h
  split at h
  next hs =>
    rcases block s (by simp [State.blockTurn, hs]) h with h' | h'
    · exact .inl h'
    · exact .inr (.inl h')
  next hs =>
    rcases block s.popTurn (by simp [State.blockTurn, hs]) h with h' | h'
    · exact .inl h'
    · exact .inr (.inl h')
  next q rest hs =>
    refine .inr (.inr (.inl ⟨q, rest, hs, ?_⟩))
    by_cases hq : q.rq < Config.requesters
    · rw [issue_of_lt hq] at h
      exact ⟨hq, by simpa [State.popTurn, hs] using (Host.Outcome.next.inj h).symm⟩
    · rw [issue_of_ge (Nat.not_lt.1 hq)] at h
      cases h
  next rest hs =>
    refine .inr (.inr (.inr ⟨rest, hs, ?_⟩))
    simpa [State.popTurn, State.resetTurn, hs] using (Host.Outcome.next.inj h).symm

/-- A run whose first step answers a next state goes on from it. -/
theorem run_succ_next (M : Host.Core) {k : Nat} {s s' : M.State} (h : M.step s = .next s') :
    M.run (k + 1) s = M.run k s' := by
  rw [Host.Core.run, h]

/-- A run of one step more that answers a next state took a step and then a run. -/
theorem run_succ_inv (M : Host.Core) {k : Nat} {s t : M.State} (h : M.run (k + 1) s = .next t) :
    ∃ s', M.step s = .next s' ∧ M.run k s' = .next t := by
  rw [Host.Core.run] at h
  split at h
  next s' hs => exact ⟨s', hs, h⟩
  all_goals cases h

end Sys2Proof.Machine
end

