-- ==== Sys2Proof/Laws/PerInstr.lean ====
section
/-! SUPPORT. The family `Encoding`: every command word agrees with its row of the opcode table on the bits the row
fixes. -/

namespace Sys2Proof

/-- The bits a row of opcode_table.json fixes. -/
def tableMask : Instr → Command
  | .bits _ => 0x0000FFFF
  | .bpack _ => 0x0000FFFF
  | .tcs _ => 0x0000FFFF
  | .tcu _ => 0x0000FFFF
  | .tc _ => 0x0000FFFF
  | .tcsl _ => 0x0000FFFF
  | .tcul _ => 0x0000FFFF
  | .tcl _ => 0x0000FFFF
  | .w2l _ _ => 0xFFFFFFCF
  | .l2w _ _ => 0xFFFFFFCF
  | .fdec _ => 0xFFFFFFBF
  | .fenc _ => 0xFFFFFFBF

/-- The value a row of opcode_table.json gives those bits. -/
def tableMatch : Instr → Command
  | .bits _ => 0x00000000
  | .bpack _ => 0x00000001
  | .tcs _ => 0x00000002
  | .tcu _ => 0x00000003
  | .tc _ => 0x00000004
  | .tcsl _ => 0x00000005
  | .tcul _ => 0x00000006
  | .tcl _ => 0x00000007
  | .w2l _ _ => 0x00000008
  | .l2w _ _ => 0x00000009
  | .fdec _ => 0x0000000A
  | .fenc _ => 0x0000000B

/-- The low half of a width-taking command word is its OPC alone. -/
theorem layout_width_low (w : BitVec 16) (k : BitVec 4) :
    layout w false false false k &&& 0x0000FFFF = k.setWidth 32 := by
  have h1 := k.isLt
  apply BitVec.eq_of_toNat_eq
  rw [BitVec.toNat_and, layout_toNat, show BitVec.toNat (65535 : BitVec 32) = 2 ^ 16 - 1 from rfl,
    Nat.and_two_pow_sub_one_eq_mod]
  simp
  omega

end Sys2Proof

namespace Sys2Proof.Laws.Encoding

/-- An instruction's command word has the bits its row of the opcode table fixes. -/
def Statement (i : Instr) : Prop := encode i &&& tableMask i = tableMatch i

theorem bits (n : BitVec 16) : Statement (.bits n) := layout_width_low n _
theorem bpack (n : BitVec 16) : Statement (.bpack n) := layout_width_low n _
theorem tcs (n : BitVec 16) : Statement (.tcs n) := layout_width_low n _
theorem tcu (n : BitVec 16) : Statement (.tcu n) := layout_width_low n _
theorem tc (n : BitVec 16) : Statement (.tc n) := layout_width_low n _
theorem tcsl (n : BitVec 16) : Statement (.tcsl n) := layout_width_low n _
theorem tcul (n : BitVec 16) : Statement (.tcul n) := layout_width_low n _
theorem tcl (n : BitVec 16) : Statement (.tcl n) := layout_width_low n _
theorem w2l (le ll : Bool) : Statement (.w2l le ll) := by
  unfold Statement; cases le <;> cases ll <;> decide
theorem l2w (le ll : Bool) : Statement (.l2w le ll) := by
  unfold Statement; cases le <;> cases ll <;> decide
theorem fdec (dp : Bool) : Statement (.fdec dp) := by
  unfold Statement; cases dp <;> decide
theorem fenc (dp : Bool) : Statement (.fenc dp) := by
  unfold Statement; cases dp <;> decide

end Sys2Proof.Laws.Encoding
end

