-- ==== Sys2Proof/Tests/Slice0.lean ====
section
/-! SUPPORT. Tests on fixed values, from spec/95_test_vectors.md and the encodings of 30_encoding.md, and for each
statement with hypotheses a witness that meets them. -/

namespace Sys2Proof.Tests

open Sys2Proof Sys2Proof.Machine

/-! ## The small state the tests serve one request from -/

/-- One request in flight, issued by requester 0. -/
def one (cmd : Command) (arg : Payload) : State := { State.reset with inFlight := [⟨0, cmd, arg⟩] }

/-- The response the one step gives it. -/
def served (cmd : Command) (arg : Payload) : Option Resp :=
  match step (one cmd arg) with
  | .next t => t.delivered.getLast?.map fun d => d.resp
  | .fault _ => none
  | .refused _ => none

/-! ## Well-formedness: an ill-formed term for each check -/

theorem test_wf_width_zero : [Instr.bits 0, .bpack 0, .tcs 0, .tcu 0, .tc 0, .tcsl 0, .tcul 0, .tcl 0].all
    (fun i => !i.wf) = true := by decide

theorem test_wf_above_nmax (n : BitVec 16) (h : Config.nmax < n.toNat) : legalWidth n = false := by
  have : ¬ n.toNat ≤ Config.nmax := Nat.not_le.2 h
  simp [legalWidth, this]

theorem test_wf_legal : [Instr.bits 1, .bpack 32, .tcs 1, .tcu 32, .tc 1, .tcsl 16, .tcul 16, .tcl 16, .w2l true true,
    .l2w false true, .fdec true, .fenc false].all Instr.wf = true := by decide

/-! ## Decoding: words written out bit by bit from R60 and R61, `WIDTH RSV D L E OPC` -/

theorem test_decode_bits : decode 0b00000000000100000000000000000000 = .op (.bits 16) := by decide
theorem test_decode_bpack : decode 0b00000000000000110000000000000001 = .op (.bpack 3) := by decide
theorem test_decode_tcs : decode 0b00000000001000000000000000000010 = .op (.tcs 32) := by decide
theorem test_decode_tcu : decode 0b00000000000010000000000000000011 = .op (.tcu 8) := by decide
theorem test_decode_tc : decode 0b00000000000000010000000000000100 = .op (.tc 1) := by decide
theorem test_decode_tcsl : decode 0b00000000000100000000000000000101 = .op (.tcsl 16) := by decide
theorem test_decode_tcul : decode 0b00000000000100000000000000000110 = .op (.tcul 16) := by decide
theorem test_decode_tcl : decode 0b00000000000100000000000000000111 = .op (.tcl 16) := by decide
theorem test_decode_w2l_le : decode 0b00000000000000000000000000011000 = .op (.w2l true false) := by decide
theorem test_decode_w2l_ll : decode 0b00000000000000000000000000101000 = .op (.w2l false true) := by decide
theorem test_decode_l2w : decode 0b00000000000000000000000000111001 = .op (.l2w true true) := by decide
theorem test_decode_fdec_dp : decode 0b00000000000000000000000001001010 = .op (.fdec true) := by decide
theorem test_decode_fenc : decode 0b00000000000000000000000000001011 = .op (.fenc false) := by decide

/-- 95 section 2.5: illegal words, each with the first reason of R68. -/
theorem test_decode_illegal :
    decode 0x00000000 = .illegal .widthOutOfRange ∧ decode 0x0000000C = .illegal .reservedOpcode ∧
    decode 0x0000000F = .illegal .reservedOpcode ∧ decode 0x0000008C = .illegal .reservedBits ∧
    decode 0x00100080 = .illegal .reservedBits ∧ decode 0x00100010 = .illegal .unreadField ∧
    decode 0x00100008 = .illegal .unreadField ∧ decode 0x00000048 = .illegal .unreadField ∧
    decode 0x0000001A = .illegal .unreadField ∧ decode 0x0000002B = .illegal .unreadField := by decide

/-- No two rows of the opcode table overlap: some bit both fix differs. -/
theorem test_rows_disjoint :
    ([Instr.bits 0, .bpack 0, .tcs 0, .tcu 0, .tc 0, .tcsl 0, .tcul 0, .tcl 0, .w2l false false, .l2w false false,
      .fdec false, .fenc false].map fun i => (tableMask i, tableMatch i)).Pairwise
      (fun a b => a.1 &&& b.1 &&& (a.2 ^^^ b.2) ≠ 0) := by decide

/-- An encoder word against R75. -/
theorem test_encode : encode (.tcs 32) = 0x00200002 ∧ encode (.w2l true true) = 0x00000038 ∧
    encode (.fenc true) = 0x0000004B := by decide

/-! ## One step of each operation (95 sections 1 and 2) -/

theorem test_bits : served 0x00040000 (.pNat 5) = some (respOk (.pBools [true, false, true, false])) := by decide
theorem test_bits_ignores_high : served 0x00030000 (.pNat 255) = some (respOk (.pBools [true, true, true])) := by
  decide
theorem test_bpack : intFromBits [true, true, true, false, false, false, false, false, false, false, false, false,
    true, true, true, true] = 0xF007 := by decide
theorem test_bpack_length : served 0x00100001 (.pBools []) = some respShape := by decide
theorem test_tcs : served 0x00200002 (.pInt 0xFFFEA2A5) = some (respOk (.pInt (-89435))) := by decide
theorem test_tcs_negative : served 0x00100002 (.pInt (-1)) = some (respRange 0) := by decide
theorem test_tcu : served 0x00100003 (.pInt (-32768)) = some (respOk (.pInt 32768)) := by decide
theorem test_tcu_width_one : served 0x00010003 (.pInt 1) = some (respRange 0) := by decide
theorem test_tc : served 0x00100004 (.pInt 65535) = some (respOk (.pInt (-1))) := by decide
theorem test_tc_negative : served 0x00100004 (.pInt (-1)) = some (respOk (.pInt 65535)) := by decide
theorem test_tcsl : listMapFrom (toSigned 16) 0 [0, 0x7FFF, 0x8000, 0xFFFF] = .ok [0, 32767, -32768, -1] := by rfl
theorem test_tcsl_first_failure : listMapFrom (toSigned 16) 0 [1, 0x10000, -1] = .error 1 := by rfl
theorem test_tcul : listMapFrom (toUnsigned 16) 0 [-1, -32768, 32767] = .ok [65535, 32768, 32767] := by rfl
theorem test_tcul_step : served 0x00100006 (.pInts [32768]) = some (respRange 0) := by decide
theorem test_tcl : listMapFrom (toOther 16) 0 [-1, 65535, 7] = .ok [65535, -1, 7] := by rfl
theorem test_tcl_step : served 0x00010007 (.pInts [1]) = some (respOk (.pInts [-1])) := by decide
theorem test_w2l : wordsToLongs false false [1, 2, 3] = [0x00010002] := by decide
theorem test_w2l_reversed : wordsToLongs true true [0x0123, 0x4567, 0x89AB, 0xCDEF] = [0xCDEF89AB45670123] := by
  decide
theorem test_l2w : served 0x00000019 (.pLongs [0xDEADBEEF]) = some (respOk (.pWords [0xBEEF, 0xDEAD])) := by decide
theorem test_l2w_first_failure :
    longsToWordsFrom false false 0 [1, 0xFFFFFFFF, 0x1FFFFFFFF, 0xFFFFFFFFFFFFFFFF] = .error 2 := by rfl
theorem test_fdec : served 0x0000000A (.pPat 0x66FF0C2F) = some (respOk (.pF64 0x44DFE185E0000000)) := by decide
theorem test_fdec_subnormal : served 0x0000000A (.pPat 0x007FFFFF) = some (respOk (.pF64 0x380FFFFFC0000000)) := by
  decide
theorem test_fenc : served 0x0000000B (.pF64 0x3FB999999999999A) = some (respOk (.pPat 0x3DCCCCCD)) := by
  decide +kernel
theorem test_fenc_tie : served 0x0000000B (.pF64 0x36A8000000000000) = some (respOk (.pPat 0x00000002)) := by
  decide +kernel
/-- R220: the codes of the statuses. -/
theorem test_status_codes : [Status.ok, .rangeError, .illegalCommand, .shapeError].map statusCode = [0, 1, 2, 3] := by
  decide
theorem test_illegal_before_shape : served 0x0000000C (.pInts [0x10000]) = some respIllegal := by decide
theorem test_shape_before_range : served 0x00100002 (.pInts [0x10000]) = some respShape := by decide

/-! ## The agents -/

/-- An issue turn, then the block's turn: the request issued is the one answered. -/
theorem test_issue : step { State.reset with schedule := [.issue ⟨0, 0x00010002, .pInt 1⟩] } =
    .next { State.reset with inFlight := [⟨0, 0x00010002, .pInt 1⟩] } := by rfl

/-- R251: a request in flight at reset gets no response. -/
theorem test_reset_abandons : step { one 0x00010002 (.pInt 1) with schedule := [.reset] } =
    .next { State.reset with abandoned := [⟨0, 0x00010002, .pInt 1⟩] } := by rfl

/-- R33: a run whose request was abandoned is not complete; one with its request answered is, with turns left too. -/
theorem test_complete :
    ¬ ({ State.reset with abandoned := [⟨0, 0, .pNat 0⟩] } : State).Complete ∧ ¬ (one 0 (.pNat 0)).Complete ∧
    ({ State.reset with delivered := [⟨⟨0, 0, .pNat 0⟩, respIllegal⟩], schedule := [.serve] } : State).Complete := by
  simp [State.Complete, State.unanswered, one]

/-- R32: the second request of a requester is not served before the first. -/
theorem test_oldest_first : oldestEach [⟨0, 1, .pNat 1⟩, ⟨1, 2, .pNat 2⟩, ⟨0, 3, .pNat 3⟩] =
    [⟨0, 1, .pNat 1⟩, ⟨1, 2, .pNat 2⟩] := by decide

theorem test_fetch_word_runs : step (State.reset.withFetchWord 32 0x00100002) =
    exec (.tcs 16) (State.reset.withFetchWord 32 0x00100002) := by rfl

/-! ## The assembler -/

/-- 95 section 2.2: `TCU.w32 -89435`. -/
theorem test_asm_tcu : assembleText ['T', 'C', 'U', '.', 'w', '3', '2', ' ', '-', '8', '9', '4', '3', '5'] =
    .ok (0x00200003, .pInt (-89435)) := by rfl

/-- R76: `bool ::= 0 | 1`, so `[0,1]` is a list of bools and `[01]` is none. -/
theorem test_asm_bools : readOperand .bools ['[', '0', ',', '1', ']'] = some (.list [0, 1]) ∧
    readOperand .bools ['[', '0', '1', ']'] = none := by decide

/-- 95 section 2.3: `L2W.le [0x12]` at its word. -/
theorem test_asm_l2w : assembleText ['L', '2', 'W', '.', 'l', 'e', ' ', '[', '0', 'x', '1', '2', ']'] =
    .ok (0x00000019, .pLongs [0x12]) := by rfl

/-- 95 section 2.4: 0.1 is 0x3FB999999999999A. -/
theorem test_asm_decimal : floatLitBits (.decimal false 1 (-1)) = some 0x3FB999999999999A := by decide +kernel

/-! ## Witnesses: the hypotheses of each statement are met together -/

theorem witness_one (cmd : Command) (arg : Payload) :
    (one cmd arg).blockTurn = some (one cmd arg) ∧ (one cmd arg).selected = some ⟨0, cmd, arg⟩ :=
  ⟨rfl, selected_of_single rfl⟩

theorem witness_DecodeOfEncode : (Instr.bits 1).WellFormed ∧ (Instr.tcl 32).WellFormed ∧
    (Instr.fenc true).WellFormed := by decide

theorem witness_DecodingIsUnambiguous : decode 0x00010000 = .op (.bits 1) := by decide

theorem witness_StepRunsTheDecodedInstruction :
    (one 0x00010002 (.pInt 1)).blockTurn = some (one 0x00010002 (.pInt 1)) ∧
    (one 0x00010002 (.pInt 1)).selected = some ⟨0, 0x00010002, .pInt 1⟩ ∧
    decode 0x00010002 = .op (.tcs 1) := by decide

theorem witness_IllegalCommandsAreAnswered :
    (one 0x0000000C (.pNat 1)).blockTurn = some (one 0x0000000C (.pNat 1)) ∧
    (one 0x0000000C (.pNat 1)).selected = some ⟨0, 0x0000000C, .pNat 1⟩ := by decide

/-- A request served; one that draws a NaN, at each precision, and one that does not. -/
theorem witness_TheBlockAnswersWithAResponseOfExec :
    ((one 0x00010002 (.pInt 1)).blockTurn = some (one 0x00010002 (.pInt 1)) ∧
      (one 0x00010002 (.pInt 1)).selected = some ⟨0, 0x00010002, .pInt 1⟩) ∧
    DrawsNaN 0x0000000A (.pPat 0x7FC00000) ∧ DrawsNaN 0x0000004A (.pPat 0x7FF0000000000001) ∧
    ¬ DrawsNaN 0x00010002 (.pInt 1) := by
  refine ⟨witness_one _ _, .inr ⟨by decide, 0x7FC00000, by decide, by decide⟩, .inl ⟨by decide, _, rfl, by decide⟩, ?_⟩
  rintro (⟨h, _⟩ | ⟨h, _⟩) <;> exact absurd h (by decide)

theorem witness_TheResponseDependsOnTheRequestAlone :
    (one 0x00010002 (.pInt 1)).blockTurn = some (one 0x00010002 (.pInt 1)) ∧
    (one 0x00010002 (.pInt 1)).selected = some ⟨0, 0x00010002, .pInt 1⟩ ∧
    ({ one 0x00010002 (.pInt 1) with draws := 7, schedule := [.serve] } : State).blockTurn =
      some { one 0x00010002 (.pInt 1) with draws := 7 } ∧
    ({ one 0x00010002 (.pInt 1) with draws := 7 } : State).selected = some ⟨0, 0x00010002, .pInt 1⟩ ∧
    ¬ DrawsNaN 0x00010002 (.pInt 1) :=
  ⟨rfl, selected_of_single rfl, rfl, selected_of_single rfl, witness_TheBlockAnswersWithAResponseOfExec.2.2.2⟩

theorem witness_TheOldestOfARequesterIsServed :
    (one 0 (.pNat 0)).inFlight ≠ [] ∧ (one 0 (.pNat 0)).selected = some ⟨0, 0, .pNat 0⟩ := by decide

theorem witness_EveryRequesterMayBeServedNext :
    ∀ p ∈ [(⟨0, 0, .pNat 0⟩ : Req)], p.rq ≠ (⟨1, 0, .pNat 0⟩ : Req).rq := by decide

/-- A next state after each kind of turn. -/
theorem witness_ResponsesKeepTheIssueOrder :
    (∃ t, step { State.reset with schedule := [.issue ⟨0, 0, .pNat 0⟩] } = .next t) ∧
    (∃ t, step { State.reset with schedule := [.reset] } = .next t) ∧
    (∃ t, step (one 0 (.pNat 0)) = .next t) := ⟨⟨_, rfl⟩, ⟨_, rfl⟩, ⟨_, rfl⟩⟩

/-- A requester number below K, and one that is not. -/
theorem witness_IssuingARequest :
    ({ State.reset with schedule := [.issue ⟨0, 0, .pNat 0⟩] } : State).schedule = .issue ⟨0, 0, .pNat 0⟩ :: [] ∧
    0 < Config.requesters ∧
    ({ State.reset with schedule := [.issue ⟨Config.requesters, 0, .pNat 0⟩] } : State).schedule =
      .issue ⟨Config.requesters, 0, .pNat 0⟩ :: [] ∧
    Config.requesters ≤ (⟨Config.requesters, 0, .pNat 0⟩ : Req).rq :=
  ⟨rfl, Nat.succ_pos _, rfl, Nat.le_refl _⟩

theorem witness_ResetAbandonsTheRequestsInFlight :
    ({ one 0 (.pNat 0) with schedule := [.reset, .issue ⟨0, 0, .pNat 0⟩] } : State).schedule =
      .reset :: [.issue ⟨0, 0, .pNat 0⟩] ∧ 0 < Config.requesters := ⟨rfl, Nat.succ_pos _⟩

theorem witness_AnIdleBlockChangesNothing :
    State.reset.blockTurn = some State.reset ∧ State.reset.inFlight = [] := by decide

/-- A state that meets the invariant with a request in flight, and its step. -/
theorem witness_EveryStepKeepsTheInvariant :
    (one 0x00010002 (.pInt 1)).Inv ∧ ∃ t, step (one 0x00010002 (.pInt 1)) = .next t := by
  refine ⟨⟨?_, ?_⟩, _, rfl⟩
  · intro q hq
    rw [show q = ⟨0, 0x00010002, .pInt 1⟩ by simpa [one, State.unanswered] using hq]
    exact Nat.succ_pos _
  · intro d hd
    simp [one] at hd

/-- Two points of runs: one complete, one with a request in flight. -/
theorem witness_ARunIsCompleteWhenEveryIssuedRequestIsAnswered :
    (∃ t, Sys2Proof.core.run 1 (one 0 (.pNat 0)) = .next t ∧ t.Complete) ∧
    ∃ t, Sys2Proof.core.run 1 { State.reset with schedule := [.issue ⟨0, 0, .pNat 0⟩] } = .next t ∧
      ∃ q, q ∈ t.inFlight :=
  ⟨⟨_, rfl, rfl⟩, ⟨_, rfl, ⟨0, 0, .pNat 0⟩, List.mem_singleton.2 rfl⟩⟩

/-- A schedule without and one with a reset, its issues by requester 0. -/
theorem witness_EveryRequestIsAnswered :
    (∀ q, Turn.issue q ∈ [Turn.issue ⟨0, 0, .pNat 0⟩, .serve] → q.rq < Config.requesters) ∧
    Turn.reset ∉ [Turn.issue ⟨0, 0, .pNat 0⟩, .serve] ∧
    (∀ q, Turn.issue q ∈ [Turn.issue ⟨0, 0, .pNat 0⟩, .reset] → q.rq < Config.requesters) := by
  refine ⟨?_, by decide, ?_⟩ <;>
  · intro q hq
    rw [show q = ⟨0, 0, .pNat 0⟩ by simpa using hq]
    exact Nat.succ_pos _

theorem witness_ExecFrame : State.reset.selected = none ∧
    (one 0 (.pNat 0)).selected = some ⟨0, 0, .pNat 0⟩ := by decide

theorem witness_ResponsesHaveTheFormOfR29 : (one 0 (.pInts [])).selected = some ⟨0, 0, .pInts []⟩ := by decide

/-- Each condition of R223 that every parameter choice has: a wrong kind, a BPACK list of another length; and none. -/
theorem witness_ShapeErrorsAreThoseOfR223 :
    (one 0 (.pInt 1)).selected = some ⟨0, 0, .pInt 1⟩ ∧ ShapeFails (.bits 1) (.pInt 1) ∧
    ShapeFails (.bpack 2) (.pBools [true]) ∧ ¬ ShapeFails (.tcs 1) (.pInt 1) := by
  refine ⟨by decide, .inl (by decide), .inr (.inr ⟨2, [true], rfl, rfl, by decide⟩), ?_⟩
  rintro (h | h | ⟨n, b, h, _⟩)
  · exact absurd rfl h
  · exact absurd h (by decide)
  · cases h

/-- A first failing element of a scalar and of a list. -/
theorem witness_RangeErrorsAreThoseOfR221 :
    (one 0 (.pInt 2)).selected = some ⟨0, 0, .pInt 2⟩ ∧ RangeFails (.tcs 1) (.pInt 2) 0 ∧
    RangeFails (.tcsl 1) (.pInts [2]) 0 ∧ RangeFails (.l2w true false) (.pLongs [0x100000000]) 0 ∧
    RangeFails (.fdec false) (.pPat 0x100000000) 0 :=
  ⟨by decide, ⟨rfl, .inr (by decide)⟩, ⟨2, rfl, .inr (by decide)⟩, ⟨_, rfl, by decide⟩, ⟨rfl, by decide⟩⟩

theorem witness_ErrorPriority :
    (one 0x0000000C (.pInts [])).blockTurn = some (one 0x0000000C (.pInts [])) ∧
    (decode 0x0000000C).instr? = none ∧ decode 0x00010002 = .op (.tcs 1) ∧
    ShapeFails (.tcs 1) (.pInts []) ∧ ¬ ShapeFails (.tcs 1) (.pInt 2) ∧ RangeFails (.tcs 1) (.pInt 2) 0 := by
  refine ⟨rfl, by decide, by decide, .inl (by decide), ?_, rfl, .inr (by decide)⟩
  rintro (h | h | ⟨n, b, h, _⟩)
  · exact absurd rfl h
  · exact absurd h (by decide)
  · cases h

/-- A partial chunk within every LMAX, a value with a bit above n, a datum. -/
theorem witness_SilentNonErrors :
    (one 8 (.pWords [7])).selected = some ⟨0, 8, .pWords [7]⟩ ∧ tooLong [(7 : Word)].length = false ∧
    (one 0x00010000 (.pNat 2)).selected = some ⟨0, 0x00010000, .pNat 2⟩ ∧
    (one 11 (.pF64 0x7E37E43C8800759C)).selected = some ⟨0, 11, .pF64 0x7E37E43C8800759C⟩ := by decide

theorem witness_BitsAnswersTheLowBits :
    (one 0x00010000 (.pNat 3)).selected = some ⟨0, 0x00010000, .pNat 3⟩ ∧ 0 < (1 : BitVec 16).toNat := by decide

/-- Length n, within every LMAX, and another length. -/
theorem witness_BpackAnswersTheInteger :
    (one 0x00010001 (.pBools [true])).selected = some ⟨0, 0x00010001, .pBools [true]⟩ ∧
    [true].length = (1 : BitVec 16).toNat ∧ tooLong [true].length = false ∧
    [true].length ≠ (2 : BitVec 16).toNat := by decide

theorem witness_BitVectorLaws : [true, false].length = 2 := by decide

theorem witness_TcsConvertsToSigned : (one 0x00010002 (.pInt 1)).selected = some ⟨0, 0x00010002, .pInt 1⟩ := by decide
theorem witness_TcuConvertsToUnsigned : (one 0x00010003 (.pInt (-1))).selected = some ⟨0, 0x00010003, .pInt (-1)⟩ := by
  decide
theorem witness_TcConvertsToTheOtherReading :
    (one 0x00010004 (.pInt (-1))).selected = some ⟨0, 0x00010004, .pInt (-1)⟩ := by decide

/-- A list in the domain, and one whose first element is outside it, at width 1. (Lists of one element: LMAX may be 1.) -/
theorem witness_TcslConvertsAList :
    (one 0x00010005 (.pInts [1])).selected = some ⟨0, 0x00010005, .pInts [1]⟩ ∧ tooLong [(1 : Int)].length = false ∧
    (∀ v ∈ [(1 : Int)], 0 ≤ v ∧ v ≤ 2 ^ (1 : BitVec 16).toNat - 1) ∧
    [(2 : Int)] = [] ++ 2 :: [] ∧ ((2 : Int) < 0 ∨ (2 : Int) > 2 ^ (1 : BitVec 16).toNat - 1) := by decide
theorem witness_TculConvertsAList :
    (one 0x00010006 (.pInts [-1])).selected = some ⟨0, 0x00010006, .pInts [-1]⟩ ∧
    tooLong [(-1 : Int)].length = false ∧
    (∀ v ∈ [(-1 : Int)], -2 ^ ((1 : BitVec 16).toNat - 1) ≤ v ∧ v ≤ 2 ^ ((1 : BitVec 16).toNat - 1) - 1) ∧
    [(1 : Int)] = [] ++ 1 :: [] ∧
    ((1 : Int) < -2 ^ ((1 : BitVec 16).toNat - 1) ∨ (1 : Int) > 2 ^ ((1 : BitVec 16).toNat - 1) - 1) := by decide
theorem witness_TclConvertsAList :
    (one 0x00010007 (.pInts [-1])).selected = some ⟨0, 0x00010007, .pInts [-1]⟩ ∧
    tooLong [(-1 : Int)].length = false ∧
    (∀ v ∈ [(-1 : Int)], -2 ^ ((1 : BitVec 16).toNat - 1) ≤ v ∧ v ≤ 2 ^ (1 : BitVec 16).toNat - 1) ∧
    [(2 : Int)] = [] ++ 2 :: [] ∧
    ((2 : Int) < -2 ^ ((1 : BitVec 16).toNat - 1) ∨ (2 : Int) > 2 ^ (1 : BitVec 16).toNat - 1) := by decide

/-- Each clause of the laws at the ends of its domain, width 1. -/
theorem witness_TwosComplementLaws :
    1 ≤ 1 ∧ ((0 : Int) ≤ 1 ∧ (1 : Int) ≤ 2 ^ 1 - 1) ∧ (-2 ^ (1 - 1) ≤ (-1 : Int) ∧ (-1 : Int) ≤ 2 ^ (1 - 1) - 1) ∧
    toSigned 1 1 = some (-1) ∧ toUnsigned 1 (-1) = some 1 ∧
    (2 : Int) > 2 ^ 1 - 1 ∧ (-2 : Int) < -2 ^ (1 - 1) ∧ (1 : Int) > 2 ^ (1 - 1) - 1 := by decide

theorem witness_W2lJoinsTheChunks :
    (one 8 (.pWords [7])).selected = some ⟨0, 8, .pWords [7]⟩ ∧ tooLong [(7 : Word)].length = false ∧
    (wordsToLongs false false [1, 2])[0]? = some 0x00010002 := by decide

/-- A long in range with a word of it, and one out of range. -/
theorem witness_L2wSplitsTheLongs :
    (one 9 (.pLongs [0xFFFFFFFF])).selected = some ⟨0, 9, .pLongs [0xFFFFFFFF]⟩ ∧
    tooLong [(0xFFFFFFFF : Long)].length = false ∧ (∀ x ∈ [(0xFFFFFFFF : Long)], x.toNat < 2 ^ 32) ∧
    [(0xFFFFFFFF : Long)][0]? = some 0xFFFFFFFF ∧ 1 < 2 ∧
    [(0x100000000 : Long)] = [] ++ 0x100000000 :: [] ∧ 2 ^ 32 ≤ (0x100000000 : Long).toNat :=
  ⟨by decide, by decide, by simp, by decide, by decide, by decide, by decide⟩

theorem witness_WordAggregatorLaws : ∀ x ∈ [(0xFFFFFFFF : Long)], x.toNat < 2 ^ 32 := by simp

theorem witness_WideningIsExact : isNaN32 0x00000001 = false ∧ isNaN32 0xFF800000 = false := by decide

/-- Infinity; the first magnitude that overflows and the last that does not, 2^128 - 2^103 and the datum below it. -/
theorem witness_NarrowingIsToNearestEven :
    (isNaN64 0x7FF0000000000000 = false ∧ exponent64 0x7FF0000000000000 = 0x7FF) ∧
    (isNaN64 0x47EFFFFFF0000000 = false ∧ exponent64 0x47EFFFFFF0000000 ≠ 0x7FF ∧
      2 ^ 1202 - 2 ^ 1177 ≤ units64 0x47EFFFFFF0000000) ∧
    (isNaN64 0x47EFFFFFEFFFFFFF = false ∧ exponent64 0x47EFFFFFEFFFFFFF ≠ 0x7FF ∧
      units64 0x47EFFFFFEFFFFFFF < 2 ^ 1202 - 2 ^ 1177) ∧
    exponent32 0x7F7FFFFF ≠ 0xFF := by decide +kernel

/-- 2^-150, the last that underflows to zero, and the datum above it. -/
theorem witness_NarrowingUnderflow :
    (exponent64 0x3690000000000000 ≠ 0x7FF ∧ units64 0x3690000000000000 ≤ 2 ^ 924) ∧
    (exponent64 0x3690000000000001 ≠ 0x7FF ∧ 2 ^ 924 < units64 0x3690000000000001 ∧
      units64 0x3690000000000001 < 2 ^ 925) := by decide +kernel

theorem witness_FdecDoubleReturnsTheDatum :
    (one 0x4A (.pPat 1)).selected = some ⟨0, 0x4A, .pPat 1⟩ ∧ isNaN64 1 = false := by decide

/-- The largest pattern that is no NaN by its value, and the smallest out of range. -/
theorem witness_FdecSingleReturnsTheValue :
    (one 10 (.pPat ((0xFF800000 : BitVec 32).setWidth 64))).selected =
      some ⟨0, 10, .pPat ((0xFF800000 : BitVec 32).setWidth 64)⟩ ∧ isNaN32 0xFF800000 = false ∧
    (one 10 (.pPat 0x100000000)).selected = some ⟨0, 10, .pPat 0x100000000⟩ ∧
    2 ^ 32 ≤ (0x100000000 : BitVec 64).toNat := by decide

theorem witness_FdecOfANaNReturnsANaN :
    (one 0x4A (.pPat 0x7FF0000000000001)).selected = some ⟨0, 0x4A, .pPat 0x7FF0000000000001⟩ ∧
    isNaN64 0x7FF0000000000001 = true ∧
    (one 10 (.pPat ((0xFFFFFFFF : BitVec 32).setWidth 64))).selected =
      some ⟨0, 10, .pPat ((0xFFFFFFFF : BitVec 32).setWidth 64)⟩ ∧ isNaN32 0xFFFFFFFF = true := by decide

theorem witness_FencReturnsThePattern :
    (one 11 (.pF64 0xFFF0000000000123)).selected = some ⟨0, 11, .pF64 0xFFF0000000000123⟩ ∧
    isNaN64 0xFFF0000000000123 = true ∧
    (one 11 (.pF64 1)).selected = some ⟨0, 11, .pF64 1⟩ ∧ isNaN64 1 = false := by decide

/-- -2^-149 at single precision, a datum that is not a NaN, and a NaN. -/
theorem witness_DecodeAfterEncode :
    isNaN64 0xB6A0000000000000 = false ∧ value32 0x80000001 = value64 0xB6A0000000000000 ∧
    isNaN64 0x7FF8000000000000 = true := by decide +kernel

theorem witness_AssembledCommandsAreLegal : assemble ⟨.tcs, [], .integer 1⟩ = .ok (0x00100002, .pInt 1) := by rfl

theorem witness_EveryInstructionCanBeSpelled :
    ((Instr.tcul 32).WellFormed ∧ asmPayload (argKind (.tcul 32)) (.list [-1]) = some (.pInts [-1])) ∧
    ((Instr.l2w true true).WellFormed ∧
      asmPayload (argKind (.l2w true true)) (.list [0xFFFFFFFFFFFFFFFF]) = some (.pLongs [0xFFFFFFFFFFFFFFFF])) := by
  decide

theorem witness_ShorthandsAssemble : legalWidth 1 = true ∧ legalWidth 32 = true ∧
    floatLitBits (.infinity true) = some 0xFFF0000000000000 := by decide

end Sys2Proof.Tests
end

section
/-! PROOFS. The transaction system: one rule for each kind of turn, and the statements that follow from the rules. -/

namespace Sys2Proof.Machine

/-! ## What a turn does -/

/-- With no turn left, taking one changes nothing. -/
theorem popTurn_of_nil {s : State} (hs : s.schedule = []) : s.popTurn = s := by
  rw [State.popTurn, hs, List.tail_nil, ← hs]

/-- The block has the turn where none is left or the next one is its own; it serves in the state with the turn taken. -/
theorem blockTurn_cases {s t : State} (h : s.blockTurn = some t) :
    t = s.popTurn ∧ (s.schedule = [] ∨ ∃ rest, s.schedule = .serve :: rest) := by
  match hs : s.schedule with
  | [] =>
    rw [State.blockTurn, hs] at h
    obtain rfl := Option.some.inj h
    exact ⟨(popTurn_of_nil hs).symm, .inl rfl⟩
  | .serve :: rest =>
    rw [State.blockTurn, hs] at h
    exact ⟨(Option.some.inj h).symm, .inr ⟨rest, rfl⟩⟩
  | .issue _ :: _ | .reset :: _ =>
    rw [State.blockTurn, hs] at h
    cases h

/-- The state the block serves in is the one with the turn taken. -/
theorem blockTurn_eq_popTurn {s t : State} (h : s.blockTurn = some t) : t = s.popTurn := (blockTurn_cases h).1

/-- Where the block has the turn, the step is its serving. -/
theorem step_of_blockTurn {s t : State} (h : s.blockTurn = some t) : step s = serve t := by
  obtain ⟨rfl, hs | ⟨rest, hs⟩⟩ := blockTurn_cases h
  · simp only [step, takeTurn, hs, popTurn_of_nil hs]
  · simp only [step, takeTurn, hs]

/-- Where the block has the turn and a request is in flight, the step answers one, as `Exec` does (R30). -/
theorem step_of_selected {s t : State} {q : Req} (h : s.blockTurn = some t) (hq : t.selected = some q) :
    step s = .next (t.answer q (execResponse q.cmd q.arg (Config.nanDraw t.draws))) := by
  rw [step_of_blockTurn h, serve_of_selected hq]

/-- An issue turn of one of the K requesters (R31). -/
theorem step_of_issue {s : State} {q : Req} {rest : List Turn} (hs : s.schedule = .issue q :: rest)
    (hq : q.rq < Config.requesters) :
    step s = .next { s with schedule := rest, inFlight := s.inFlight ++ [q] } := by
  simp [step, takeTurn, hs, issue_of_lt hq, State.popTurn]

/-- An issue turn of a number that is no requester (log entry 8). -/
theorem step_of_issue_refused {s : State} {q : Req} {rest : List Turn} (hs : s.schedule = .issue q :: rest)
    (hq : Config.requesters ≤ q.rq) : step s = .refused .noSuchRequester := by
  simp [step, takeTurn, hs, issue_of_ge hq]

/-- A reset turn (R251). -/
theorem step_of_reset {s : State} {rest : List Turn} (hs : s.schedule = .reset :: rest) :
    step s = .next { s with schedule := rest, inFlight := [], abandoned := s.abandoned ++ s.inFlight } := by
  simp [step, takeTurn, hs, State.popTurn, State.resetTurn]

/-- Every step takes the next turn off the schedule. -/
theorem step_schedule {s s' : State} (h : step s = .next s') : s'.schedule = s.schedule.tail := by
  rcases step_cases h with ⟨t, ht, -, rfl⟩ | ⟨t, q, ht, -, rfl⟩ | ⟨q, rest, hs, -, rfl⟩ | ⟨rest, hs, rfl⟩
  · simp [blockTurn_eq_popTurn ht]
  · simp [blockTurn_eq_popTurn ht]
  · simp [hs]
  · simp [hs]

/-- A step is refused only at an issue turn of a number that is no requester. -/
theorem step_next_or_refused (s : State) :
    (∃ s', step s = .next s') ∨
    ∃ q rest, s.schedule = .issue q :: rest ∧ Config.requesters ≤ q.rq ∧ step s = .refused .noSuchRequester := by
  have serves (t : State) : ∃ s', serve t = .next s' := by
    rcases serve_cases t with ⟨-, h⟩ | ⟨q, -, h⟩ <;> exact ⟨_, h⟩
  match hs : s.schedule with
  | [] => exact .inl (step_of_blockTurn (by simp [State.blockTurn, hs] : s.blockTurn = some s) ▸ serves s)
  | .serve :: _ =>
    exact .inl (step_of_blockTurn (by simp [State.blockTurn, hs] : s.blockTurn = some s.popTurn) ▸ serves _)
  | .reset :: _ => exact .inl ⟨_, step_of_reset hs⟩
  | .issue q :: rest =>
    rcases Nat.lt_or_ge q.rq Config.requesters with hq | hq
    · exact .inl ⟨_, step_of_issue hs hq⟩
    · exact .inr ⟨q, rest, rfl, hq, step_of_issue_refused hs hq⟩

/-! ## The invariant -/

/-- The invariant speaks of the unanswered requests and of the responses delivered only. -/
theorem inv_congr {s s' : State} (h : s.Inv) (hu : ∀ q ∈ s'.unanswered, q ∈ s.unanswered)
    (hd : s'.delivered = s.delivered) : s'.Inv :=
  ⟨fun q hq => h.requester q (hu q hq), hd ▸ h.served⟩

/-- An answer leaves no request unanswered that was not so before. -/
theorem mem_unanswered_of_answer {s : State} {q p : Req} {r : Resp} (h : p ∈ (s.answer q r).unanswered) :
    p ∈ s.unanswered := by
  rcases List.mem_append.1 h with h | h
  · exact List.mem_append_left _ h
  · exact List.mem_append_right _ (List.mem_of_mem_eraseP h)

/-- Answering the request served with a response of `Exec` keeps the invariant (R30). -/
theorem inv_answer {s : State} {q : Req} {r : Resp} (h : s.Inv) (hq : s.selected = some q)
    (hr : Admits q.cmd q.arg r) : (s.answer q r).Inv where
  requester _ hp := h.requester _ (mem_unanswered_of_answer hp)
  served d hd := by
    rcases List.mem_append.1 hd with hd | hd
    · exact h.served d hd
    · obtain rfl := List.mem_singleton.1 hd
      exact ⟨h.requester q (List.mem_append_right _ (selected_mem hq)), hr⟩

/-- An issue by one of the K requesters keeps the invariant (R28). -/
theorem inv_issue {s : State} {q : Req} {rest : List Turn} (h : s.Inv) (hq : q.rq < Config.requesters) :
    State.Inv { s with schedule := rest, inFlight := s.inFlight ++ [q] } where
  requester p hp := by
    rw [State.unanswered, ← List.append_assoc] at hp
    rcases List.mem_append.1 hp with hp | hp
    · exact h.requester p hp
    · exact List.mem_singleton.1 hp ▸ hq
  served := h.served

/-- Settles O16: the turn taken changes nothing the invariant speaks of, and each kind of turn keeps it. -/
theorem everyStepKeepsTheInvariant : Obligations.EveryStepKeepsTheInvariant := by
  intro s s' hinv h
  have hpop : s.popTurn.Inv := inv_congr hinv (fun _ hq => hq) rfl
  rcases step_cases h with ⟨t, ht, -, rfl⟩ | ⟨t, q, ht, hq, rfl⟩ | ⟨q, rest, -, hq, rfl⟩ | ⟨rest, -, rfl⟩
  · exact blockTurn_eq_popTurn ht ▸ hpop
  · exact inv_answer (blockTurn_eq_popTurn ht ▸ hpop) hq ⟨_, rfl⟩
  · exact inv_issue hinv hq
  · exact inv_congr hinv (by simp [State.unanswered]) rfl

/-! ## Single turns -/

/-- Settles O12. -/
theorem issuingARequest : Obligations.IssuingARequest :=
  fun _ _ _ hs => ⟨step_of_issue hs, step_of_issue_refused hs⟩

/-- Settles O14: with nothing in flight nothing is selected, and the block's serving waits. -/
theorem anIdleBlockChangesNothing : Obligations.AnIdleBlockChangesNothing := by
  intro s t ht hidle
  rw [step_of_blockTurn ht, serve_of_none (selected_eq_none.2 hidle)]

/-! ## Decoding gives well-formed instructions -/

/-- A width-taking operation is decoded with a legal width only (R68). -/
theorem decodeWidthOp_eq_op {op : BitVec 16 → Instr} {f : Fields} {i : Instr} (h : decodeWidthOp op f = .op i) :
    legalWidth f.width = true ∧ i = op f.width := by
  unfold decodeWidthOp at h
  split at h
  · cases h
  · split at h
    next hw => exact ⟨hw, (Decoded.op.inj h).symm⟩
    next => cases h

/-- A word aggregator operation is decoded with its two flags. -/
theorem decodeOrderOp_eq_op {op : Bool → Bool → Instr} {f : Fields} {i : Instr} (h : decodeOrderOp op f = .op i) :
    i = op f.le f.ll := by
  unfold decodeOrderOp at h
  split at h
  · cases h
  · exact (Decoded.op.inj h).symm

/-- A codec operation is decoded with its precision. -/
theorem decodePrecisionOp_eq_op {op : Bool → Instr} {f : Fields} {i : Instr} (h : decodePrecisionOp op f = .op i) :
    i = op f.dp := by
  unfold decodePrecisionOp at h
  split at h
  · cases h
  · exact (Decoded.op.inj h).symm

/-- What the decoder names passes the check of R68. -/
theorem wellFormed_of_decode {cmd : Command} {i : Instr} (h : decode cmd = .op i) : i.WellFormed := by
  unfold decode at h
  split at h
  · cases h
  · unfold decodeFields at h
    split at h
    case h_13 => cases h
    case h_9 | h_10 => rw [decodeOrderOp_eq_op h]; rfl
    case h_11 | h_12 => rw [decodePrecisionOp_eq_op h]; rfl
    all_goals
      obtain ⟨hw, rfl⟩ := decodeWidthOp_eq_op h
      exact hw

/-- Settles O5: the block's turn serves, and serving a legal command word is `exec` of what it decodes to. -/
theorem stepRunsTheDecodedInstruction : Obligations.StepRunsTheDecodedInstruction := by
  intro s t q i ht hq hd
  refine ⟨?_, wellFormed_of_decode hd⟩
  rw [step_of_blockTurn ht]
  simp [serve, hq, hd]

end Sys2Proof.Machine
end

section
/-! PROOFS. Which request is served, the order of the responses, and when a run is complete (10_state.md R32, R33). -/

namespace Sys2Proof.Machine

/-! ## Which request is served -/

/-- The request served splits the requests in flight: nothing before it is of its requester, and an answer takes exactly
it out (R32). -/
theorem selected_split {s : State} {q : Req} (h : s.selected = some q) :
    ∃ pre post, s.inFlight = pre ++ q :: post ∧ (∀ p ∈ pre, p.rq ≠ q.rq) ∧
      removeOldest q.rq s.inFlight = pre ++ post := by
  obtain ⟨-, pre, post, hsplit, hpre⟩ := List.find?_eq_some_iff_append.1 (selected_find h)
  have hne : ∀ p ∈ pre, p.rq ≠ q.rq := fun p hp => by simpa using hpre p hp
  refine ⟨pre, post, hsplit, hne, ?_⟩
  rw [removeOldest, hsplit, List.eraseP_append_right _ (by simpa using hne), List.eraseP_cons_of_pos (by simp)]

/-- Settles O9. -/
theorem theOldestOfARequesterIsServed : Obligations.TheOldestOfARequesterIsServed := by
  refine fun s => ⟨fun hne => Option.ne_none_iff_exists'.1 (mt selected_eq_none.1 hne), fun q hq => ?_⟩
  obtain ⟨pre, post, hsplit, hpre, hrest⟩ := selected_split hq
  exact ⟨pre, post, hsplit, hpre, fun r => by rw [answer_inFlight, hrest]⟩

/-- A request with none of its requester's before it is one of the candidates. -/
theorem mem_oldestEach_of_split {pre post : List Req} {q : Req} (h : ∀ p ∈ pre, p.rq ≠ q.rq) :
    q ∈ oldestEach (pre ++ q :: post) := by
  induction pre with
  | nil => exact List.mem_cons_self
  | cons p rest ih =>
    obtain ⟨hp, hrest⟩ := List.forall_mem_cons.1 h
    exact List.mem_cons_of_mem _ (List.mem_filter.2 ⟨ih hrest, by simpa using hp.symm⟩)

/-- Some value of the free choice picks each candidate: its position among them. -/
theorem exists_pickOne_of_mem {l : List Req} {q : Req} (h : q ∈ l) : ∃ c, pickOne c l = some q := by
  obtain ⟨c, hc, hget⟩ := List.getElem_of_mem h
  match l with
  | [p] => exact ⟨0, by simpa [pickOne] using (List.mem_singleton.1 h).symm⟩
  | p :: r :: rest =>
    refine ⟨c, ?_⟩
    have hmod : c % (rest.length + 2) = c := Nat.mod_eq_of_lt hc
    rw [pickOne, hmod, List.getElem?_eq_getElem hc, hget]

/-- Settles O10. -/
theorem everyRequesterMayBeServedNext : Obligations.EveryRequesterMayBeServedNext :=
  fun _ _ _ h => exists_pickOne_of_mem (mem_oldestEach_of_split h)

/-! ## The order of the responses -/

/-- An answer is the last its requester has seen, and no other requester sees it. -/
theorem answeredOf_answer (s : State) (q : Req) (r : Resp) (rq : Nat) :
    (s.answer q r).answeredOf rq = s.answeredOf rq ++ [q].filter (fun p => p.rq == rq) := by
  simp [State.answeredOf]

/-- The request served is the first its requester has waiting. -/
theorem waitingOf_of_selected {s : State} {q : Req} (h : s.selected = some q) (r : Resp) (rq : Nat) :
    s.waitingOf rq = [q].filter (fun p => p.rq == rq) ++ (s.answer q r).waitingOf rq := by
  obtain ⟨pre, post, hsplit, hpre, hrest⟩ := selected_split h
  rw [State.waitingOf, State.waitingOf, answer_inFlight, hrest, hsplit]
  by_cases hq : q.rq = rq
  · have hnone : pre.filter (fun p => p.rq == rq) = [] := by
      simpa [List.filter_eq_nil_iff, hq] using hpre
    simp [hnone, hq]
  · simp [hq]

/-- An answer moves one request from waiting to answered, in order (R32). -/
theorem answeredOf_append_waitingOf_answer {s : State} {q : Req} (h : s.selected = some q) (r : Resp) (rq : Nat) :
    (s.answer q r).answeredOf rq ++ (s.answer q r).waitingOf rq = s.answeredOf rq ++ s.waitingOf rq := by
  rw [answeredOf_answer, waitingOf_of_selected h r, List.append_assoc]

/-- The block's turn keeps each requester's order, and takes back no answer (R32). -/
theorem blockTurn_keeps_order {s s' t : State} (ht : s.blockTurn = some t) (h : step s = .next s') (rq : Nat) :
    s'.answeredOf rq ++ s'.waitingOf rq = s.answeredOf rq ++ s.waitingOf rq ∧ s.answeredOf rq <+: s'.answeredOf rq := by
  rw [step_of_blockTurn ht] at h
  obtain rfl := blockTurn_eq_popTurn ht
  rcases serve_cases s.popTurn with ⟨-, hs⟩ | ⟨q, hq, hs⟩
  · obtain rfl := Host.Outcome.next.inj (hs.symm.trans h)
    exact ⟨rfl, [], List.append_nil _⟩
  · obtain rfl := Host.Outcome.next.inj (hs.symm.trans h)
    exact ⟨answeredOf_append_waitingOf_answer hq _ rq, _, (answeredOf_answer _ q _ rq).symm⟩

/-- Settles O11, by the kind of the turn. -/
theorem responsesKeepTheIssueOrder : Obligations.ResponsesKeepTheIssueOrder := by
  intro s s' rq h
  match hs : s.schedule with
  | .issue q :: rest =>
    rcases Nat.lt_or_ge q.rq Config.requesters with hq | hq
    · obtain rfl := Host.Outcome.next.inj ((step_of_issue hs hq).symm.trans h)
      exact ⟨rfl, by simp [State.waitingOf, List.filter_cons]⟩
    · cases (step_of_issue_refused hs hq).symm.trans h
  | .reset :: rest =>
    obtain rfl := Host.Outcome.next.inj ((step_of_reset hs).symm.trans h)
    exact ⟨rfl, rfl⟩
  | .serve :: rest => exact blockTurn_keeps_order (by rw [State.blockTurn, hs]) h rq
  | [] => exact blockTurn_keeps_order (by rw [State.blockTurn, hs]) h rq

/-! ## Every request is answered -/

/-- The steps that serving everything scheduled and in flight takes at most: an issue turn leaves one more request. -/
def State.workLeft (s : State) : Nat := 2 * s.schedule.length + s.inFlight.length

/-- Every step takes from the work left, down to none. -/
theorem step_workLeft {s s' : State} (h : step s = .next s') : s'.workLeft ≤ s.workLeft - 1 := by
  have hsched := congrArg List.length (step_schedule h)
  rw [List.length_tail] at hsched
  unfold State.workLeft
  rcases step_cases h with ⟨t, ht, hn, rfl⟩ | ⟨t, q, ht, hq, rfl⟩ | ⟨q, rest, hs, -, rfl⟩ | ⟨rest, hs, rfl⟩
  · have hidle : s'.inFlight = [] := selected_eq_none.1 hn
    rw [hsched, hidle, List.length_nil]
    omega
  · obtain rfl := blockTurn_eq_popTurn ht
    have hlen : s.inFlight.length = (removeOldest q.rq s.inFlight).length + 1 := (selected_perm hq).length_eq
    rw [hsched, hlen, answer_inFlight, popTurn_inFlight]
    omega
  · rw [hsched, hs, List.length_cons, List.length_append, List.length_singleton]
    omega
  · rw [hsched, hs, List.length_cons, List.length_nil]
    omega

/-- What `rq` has seen answered, has waiting, and has yet to issue, in order. -/
def State.ordersOf (s : State) (rq : Nat) : List Req :=
  s.answeredOf rq ++ s.waitingOf rq ++ issuedOf rq s.schedule

/-- Without a reset turn every step keeps each requester's requests, in their order (R32). -/
theorem step_ordersOf {s s' : State} (h : step s = .next s') (hr : .reset ∉ s.schedule) (rq : Nat) :
    s'.ordersOf rq = s.ordersOf rq := by
  have horder := responsesKeepTheIssueOrder s s' rq h
  rw [State.ordersOf, State.ordersOf, step_schedule h]
  match hs : s.schedule with
  | [] =>
    rw [hs] at horder
    rw [horder.1, List.tail_nil]
  | .serve :: rest =>
    rw [hs] at horder
    rw [horder.1]
    rfl
  | .issue q :: rest =>
    rw [hs] at horder
    rw [horder.1, horder.2]
    by_cases hq : q.rq = rq <;> simp [issuedOf, issuedIn, hq]
  | .reset :: rest => simp [hs] at hr

/-- Without a reset turn no step abandons a request. -/
theorem step_abandoned {s s' : State} (h : step s = .next s') (hr : .reset ∉ s.schedule) :
    s'.abandoned = s.abandoned := by
  rcases step_cases h with ⟨t, ht, -, rfl⟩ | ⟨t, q, ht, -, rfl⟩ | ⟨q, rest, -, -, rfl⟩ | ⟨rest, hs, rfl⟩
  · simp [blockTurn_eq_popTurn ht]
  · simp [blockTurn_eq_popTurn ht]
  · rfl
  · simp [hs] at hr

/-- Where the requesters scheduled exist, a step answers a next state. -/
theorem exists_step_of_requesters {s : State} (h : ∀ q, Turn.issue q ∈ s.schedule → q.rq < Config.requesters) :
    ∃ s', step s = .next s' := by
  rcases step_next_or_refused s with hs | ⟨q, rest, hs, hq, -⟩
  · exact hs
  · exact absurd (h q (hs ▸ List.mem_cons_self)) (Nat.not_lt.2 hq)

/-- As many steps as there is work left, or more, leave none, and keep what no step but a reset changes. -/
theorem run_finishes (k : Nat) : ∀ s : State, s.workLeft ≤ k →
    (∀ q, Turn.issue q ∈ s.schedule → q.rq < Config.requesters) →
    ∃ t : State, Sys2Proof.core.run k s = .next t ∧ t.workLeft = 0 ∧
      (Turn.reset ∉ s.schedule → t.abandoned = s.abandoned ∧ ∀ rq, t.ordersOf rq = s.ordersOf rq) := by
  induction k with
  | zero => exact fun s hk _ => ⟨s, rfl, Nat.le_zero.1 hk, fun _ => ⟨rfl, fun _ => rfl⟩⟩
  | succ k ih =>
    intro s hk hreq
    obtain ⟨s', hstep⟩ := exists_step_of_requesters hreq
    have hsub {turn : Turn} (hm : turn ∈ s'.schedule) : turn ∈ s.schedule :=
      List.mem_of_mem_tail (step_schedule hstep ▸ hm)
    have hk' : s'.workLeft ≤ k := (step_workLeft hstep).trans (Nat.sub_le_of_le_add hk)
    obtain ⟨t, hrun, hdone, hkeep⟩ := ih s' hk' (fun q hm => hreq q (hsub hm))
    refine ⟨t, (run_succ_next Sys2Proof.core hstep).trans hrun, hdone, fun hr => ?_⟩
    obtain ⟨hab, hord⟩ := hkeep (fun hm => hr (hsub hm))
    exact ⟨hab.trans (step_abandoned hstep hr), fun rq => (hord rq).trans (step_ordersOf hstep hr rq)⟩

/-- Settles O18: run for the work left; with none left, a requester's orders are all answered. -/
theorem everyRequestIsAnswered : Obligations.EveryRequestIsAnswered := by
  intro s hreq
  obtain ⟨t, hrun, hdone, hkeep⟩ := run_finishes s.workLeft s (Nat.le_refl _) hreq
  obtain ⟨hsched, hidle⟩ : t.schedule = [] ∧ t.inFlight = [] := by
    simpa [State.workLeft] using hdone
  refine ⟨t, hrun, hsched, hidle, fun hr => ?_⟩
  obtain ⟨hab, hord⟩ := hkeep hr
  refine ⟨hab, fun hnone => by rw [State.Complete, State.unanswered, hab, hnone, hidle]; rfl, fun rq => ?_⟩
  simpa [State.ordersOf, State.waitingOf, hsched, hidle, issuedOf, issuedIn] using hord rq

/-! ## When a run is complete -/

/-- The requests on record: those answered, and those without an answer. -/
def State.onRecord (s : State) : List Req := s.delivered.map (fun d => d.req) ++ s.unanswered

/-- Schedules issue one after the other. -/
theorem issuedIn_append (a b : List Turn) : issuedIn (a ++ b) = issuedIn a ++ issuedIn b := by
  induction a with
  | nil => rfl
  | cons turn rest ih => cases turn <;> simp [issuedIn, ih]

/-- The block's turn issues nothing. -/
theorem issuedIn_of_blockTurn {s t : State} (h : s.blockTurn = some t) : issuedIn (s.schedule.take 1) = [] := by
  obtain ⟨-, hs | ⟨rest, hs⟩⟩ := blockTurn_cases h
  · rw [hs, List.take_nil]
    rfl
  · rw [hs, List.take_succ_cons, List.take_zero]
    rfl

/-- Answering the request served moves it from unanswered to answered. -/
theorem onRecord_answer {s : State} {q : Req} (h : s.selected = some q) (r : Resp) :
    (s.answer q r).onRecord.Perm s.onRecord := by
  have hperm := (selected_perm h).symm
  have hmove : (q :: (s.abandoned ++ removeOldest q.rq s.inFlight)).Perm s.unanswered :=
    List.perm_middle.symm.trans (hperm.append_left s.abandoned)
  simpa [State.onRecord, State.unanswered] using hmove.append_left (s.delivered.map (fun d => d.req))

/-- A step adds to the requests on record what its turn issues, and loses none (R33). -/
theorem step_onRecord {s s' : State} (h : step s = .next s') :
    s'.onRecord.Perm (s.onRecord ++ issuedIn (s.schedule.take 1)) := by
  rcases step_cases h with ⟨t, ht, -, rfl⟩ | ⟨t, q, ht, hq, rfl⟩ | ⟨q, rest, hs, -, rfl⟩ | ⟨rest, hs, rfl⟩
  · rw [issuedIn_of_blockTurn ht, List.append_nil, blockTurn_eq_popTurn ht]
    rfl
  · rw [issuedIn_of_blockTurn ht, List.append_nil]
    obtain rfl := blockTurn_eq_popTurn ht
    exact onRecord_answer hq _
  · simp [State.onRecord, State.unanswered, hs, issuedIn]
  · simp [State.onRecord, State.unanswered, hs, issuedIn]

/-- A run takes turns off the schedule and adds to the requests on record what these issue (R33). -/
theorem run_onRecord (k : Nat) : ∀ s t : State, Sys2Proof.core.run k s = .next t →
    ∃ taken, s.schedule = taken ++ t.schedule ∧ t.onRecord.Perm (s.onRecord ++ issuedIn taken) := by
  induction k with
  | zero =>
    intro s t h
    obtain rfl := Host.Outcome.next.inj h
    exact ⟨[], rfl, by simp [issuedIn]⟩
  | succ k ih =>
    intro s t h
    obtain ⟨s', hstep, hrun⟩ := run_succ_inv Sys2Proof.core h
    obtain ⟨taken, htaken, hperm⟩ := ih s' t hrun
    refine ⟨s.schedule.take 1 ++ taken, ?_, ?_⟩
    · rw [List.append_assoc, ← htaken, step_schedule hstep, ← List.drop_one, List.take_append_drop]
    · rw [issuedIn_append, ← List.append_assoc]
      exact hperm.trans ((step_onRecord hstep).append_right _)

/-- A run is complete exactly when the requests answered are all those on record. -/
theorem complete_iff_perm_onRecord (t : State) :
    t.Complete ↔ (t.delivered.map (fun d => d.req)).Perm t.onRecord := by
  unfold State.Complete State.onRecord
  constructor
  · intro h
    rw [h, List.append_nil]
  · intro h
    simpa using h.length_eq

/-- Settles O52: the requests on record at a point of the run are those on record at its start and those issued since. -/
theorem aRunIsCompleteWhenEveryIssuedRequestIsAnswered :
    Obligations.ARunIsCompleteWhenEveryIssuedRequestIsAnswered := by
  intro k s t h
  obtain ⟨taken, htaken, hperm⟩ := run_onRecord k s t h
  refine ⟨taken, htaken, (complete_iff_perm_onRecord t).trans (hperm.congr_right _), ?_⟩
  rintro ⟨q, hq⟩ hc
  exact List.ne_nil_of_mem (List.mem_append_right t.abandoned hq) hc

end Sys2Proof.Machine
end

section
/-! PROOFS. The responses: what every operation can answer (10_state.md R29), and on what the answer depends (R30). -/

namespace Sys2Proof.Machine

/-! ## The frame and the form of a response -/

/-- Settles O19: every meaning is `respond`, which answers the request served or waits. -/
theorem execFrame : Obligations.ExecFrame := by
  refine fun i s => ⟨fun h => ?_, fun q h => ⟨_, _, exec_of_selected h i, rfl, rfl, rfl, rfl⟩⟩
  rw [exec_eq_respond, respond_of_none h]

/-- The operations that name the element which failed (R124, R153, R226): the list forms and L2W in long mode. -/
def FailsByPosition (i : Instr) : Prop :=
  (∃ n, i = .tcsl n) ∨ (∃ n, i = .tcul n) ∨ (∃ n, i = .tcl n) ∨ ∃ le, i = .l2w le false

/-- What operation `i` can answer: OK with a payload of its result kind, SHAPE_ERROR, or RANGE_ERROR at index 0 or, from
a list, at the element that failed (R29, R70, R226). -/
inductive AnswerOf (i : Instr) : Resp → Prop
  | ok (p : Payload) (hkind : payloadKind p = resultKind i) : AnswerOf i (respOk p)
  | shape : AnswerOf i respShape
  | range : AnswerOf i (respRange 0)
  | rangeAt (k : Nat) (hlist : FailsByPosition i) : AnswerOf i (respRange k)

/-- The check of the operand adds SHAPE_ERROR only. -/
theorem answerOf_respArg {i : Instr} {α : Type} (arg : Option α) {op : α → Resp} (h : ∀ a, AnswerOf i (op a)) :
    AnswerOf i (respArg arg op) := by
  cases arg with
  | none => exact .shape
  | some a => exact h a

/-- A scalar conversion answers its value, or RANGE_ERROR at index 0. -/
theorem answerOf_respDomain {i : Instr} {α : Type} {wrap : α → Payload} (r : Option α)
    (h : ∀ a, payloadKind (wrap a) = resultKind i) : AnswerOf i (respDomain wrap r) := by
  cases r with
  | none => exact .range
  | some a => exact .ok _ (h a)

/-- A list conversion answers its list, or RANGE_ERROR at a position. -/
theorem answerOf_respList {i : Instr} {α : Type} {wrap : List α → Payload} (r : Except Nat (List α))
    (hlist : FailsByPosition i) (h : ∀ l, payloadKind (wrap l) = resultKind i) : AnswerOf i (respList wrap r) := by
  cases r with
  | error k => exact .rangeAt k hlist
  | ok l => exact .ok _ (h l)

/-- L2W in long-long mode fails at no element: every 64-bit lane is in range (R153). -/
theorem longsToWordsFrom_longLong (le : Bool) (j : Nat) (l : List Long) :
    longsToWordsFrom le true j l = .ok (l.flatMap (splitLong le true)) := by
  induction l generalizing j with
  | nil => rfl
  | cons x rest ih => simp [longsToWordsFrom, longInRange, ih]

/-- Every response of an operation is one of those four. -/
theorem answerOf_response (i : Instr) (nan : NaN64) (arg : Payload) : AnswerOf i (i.response nan arg) := by
  cases i with
  | bits n => exact answerOf_respArg _ fun _ => .ok _ rfl
  | bpack n =>
    refine answerOf_respArg _ fun b => ?_
    split
    · exact .shape
    · exact .ok _ rfl
  | tcs n | tcu n | tc n => exact answerOf_respArg _ fun _ => answerOf_respDomain _ fun _ => rfl
  | tcsl n => exact answerOf_respArg _ fun _ => answerOf_respList _ (.inl ⟨n, rfl⟩) fun _ => rfl
  | tcul n => exact answerOf_respArg _ fun _ => answerOf_respList _ (.inr (.inl ⟨n, rfl⟩)) fun _ => rfl
  | tcl n => exact answerOf_respArg _ fun _ => answerOf_respList _ (.inr (.inr (.inl ⟨n, rfl⟩))) fun _ => rfl
  | w2l le ll => exact answerOf_respArg _ fun _ => .ok _ rfl
  | l2w le ll =>
    refine answerOf_respArg _ fun xs => ?_
    cases ll with
    | false => exact answerOf_respList _ (.inr (.inr (.inr ⟨le, rfl⟩))) fun _ => rfl
    | true =>
      rw [longsToWordsFrom_longLong]
      exact .ok _ rfl
  | fdec dp => exact answerOf_respArg _ fun _ => answerOf_respDomain _ fun _ => rfl
  | fenc dp => exact answerOf_respArg _ fun _ => .ok _ rfl

/-- Each of the four kinds of answer has the form R29 gives. -/
theorem AnswerOf.hasForm {i : Instr} {r : Resp} (h : AnswerOf i r) :
    (statusCode r.status = 0 ↔ ∃ p, r.result = some p) ∧
    (∀ p, r.result = some p → payloadKind p = resultKind i) ∧
    (r.index ≠ 0 → statusCode r.status = 1 ∧ FailsByPosition i) := by
  cases h with
  | ok p hkind => simp [respOk, statusCode, hkind]
  | shape => simp [respShape, statusCode]
  | range => simp [respRange, statusCode]
  | rangeAt k hlist => simp [respRange, statusCode, hlist]

/-- Settles O20. -/
theorem responsesHaveTheFormOfR29 : Obligations.ResponsesHaveTheFormOfR29 :=
  fun i _ _ hq => ⟨_, exec_of_selected hq i, (answerOf_response i _ _).hasForm⟩

/-! ## The binary64 NaNs -/

/-- The number a binary64 pattern spells, from its fields (R181). -/
theorem pack64_toNat (s : Bool) (e f : Nat) :
    (pack64 s e f).toNat = s.toNat * 2 ^ 63 + e % 2 ^ 11 * 2 ^ 52 + f % 2 ^ 52 := by
  have he := Nat.mod_lt e (Nat.two_pow_pos 11)
  have hf := Nat.mod_lt f (Nat.two_pow_pos 52)
  simp only [pack64, BitVec.toNat_append, BitVec.toNat_ofBool, BitVec.toNat_ofNat]
  rw [← Nat.shiftLeft_add_eq_or_of_lt hf, ← Nat.shiftLeft_add_eq_or_of_lt he]
  simp only [Nat.shiftLeft_eq]
  omega

/-- The exponent field as a quotient and remainder (R181, R10). -/
theorem exponent64_eq (p : BitVec 64) : exponent64 p = p.toNat / 2 ^ 52 % 2 ^ 11 := by
  simp [exponent64, BitVec.extractLsb'_toNat, Nat.shiftRight_eq_div_pow]

/-- The fraction field as a remainder (R181, R10). -/
theorem fraction64_eq (p : BitVec 64) : fraction64 p = p.toNat % 2 ^ 52 := by
  simp [fraction64, BitVec.extractLsb'_toNat]

/-- The sign as a quotient (R181, R10). -/
theorem sign64_toNat (p : BitVec 64) : (sign64 p).toNat = p.toNat / 2 ^ 63 := by
  have hp := p.isLt
  have h : p.toNat / 2 ^ 63 < 2 := by omega
  simp only [sign64, BitVec.getLsbD, Nat.toNat_testBit, Nat.mod_eq_of_lt h]

@[simp] theorem exponent64_pack64 (s : Bool) (e f : Nat) : exponent64 (pack64 s e f) = e % 2 ^ 11 := by
  have hs := Bool.toNat_lt s
  rw [exponent64_eq, pack64_toNat]
  omega

@[simp] theorem fraction64_pack64 (s : Bool) (e f : Nat) : fraction64 (pack64 s e f) = f % 2 ^ 52 := by
  rw [fraction64_eq, pack64_toNat]
  omega

/-- A pattern is packed from its own fields. -/
theorem pack64_fields (p : BitVec 64) : pack64 (sign64 p) (exponent64 p) (fraction64 p) = p := by
  have hp := p.isLt
  apply BitVec.eq_of_toNat_eq
  rw [pack64_toNat, sign64_toNat, exponent64_eq, fraction64_eq]
  omega

/-- The NaN test at double precision, in its two fields (R185). -/
theorem isNaN64_iff (p : BitVec 64) : isNaN64 p = true ↔ exponent64 p = 0x7FF ∧ fraction64 p ≠ 0 := by
  simp [isNaN64]

/-- The values of `NaN64` spell exactly the binary64 NaNs (R185). -/
theorem isNaN64_iff_exists_nanBits (p : BitVec 64) : isNaN64 p = true ↔ ∃ x, nanBits x = p := by
  rw [isNaN64_iff]
  constructor
  · rintro ⟨he, hf⟩
    have hlt : fraction64 p < 2 ^ 52 := (p.extractLsb' 0 52).isLt
    refine ⟨⟨sign64 p, fraction64 p - 1, by omega⟩, ?_⟩
    rw [nanBits, Nat.sub_one_add_one hf, ← he, pack64_fields]
  · rintro ⟨⟨s, f⟩, rfl⟩
    have hf := f.isLt
    refine ⟨by simp [nanBits], ?_⟩
    rw [nanBits, fraction64_pack64]
    omega

/-! ## On what a response depends -/

/-- The patterns FDEC answers with a NaN drawn: the NaN patterns of the precision asked for (R189). -/
def drawsNaNAt (dp : Bool) (p : BitVec 64) : Bool :=
  if dp then isNaN64 p else p.extractLsb' 32 32 == 0 && isNaN32 (p.setWidth 32)

/-- A pattern is a 32-bit one exactly when its high half is 0. -/
theorem high_half_eq_zero_iff (p : BitVec 64) : p.extractLsb' 32 32 = 0 ↔ (p.setWidth 32).setWidth 64 = p := by
  have hp := p.isLt
  rw [← BitVec.toNat_inj, ← BitVec.toNat_inj]
  simp only [BitVec.extractLsb'_toNat, BitVec.toNat_setWidth, BitVec.ofNat_eq_ofNat, BitVec.toNat_ofNat,
    Nat.zero_mod, Nat.shiftRight_eq_div_pow]
  omega

/-- At single precision the patterns with a NaN drawn are the binary32 NaNs, widened by zeros. -/
theorem drawsNaNAt_single_iff (p : BitVec 64) :
    drawsNaNAt false p = true ↔ ∃ q : BitVec 32, p = q.setWidth 64 ∧ isNaN32 q = true := by
  simp only [drawsNaNAt, Bool.false_eq_true, if_false, Bool.and_eq_true, beq_iff_eq, high_half_eq_zero_iff]
  constructor
  · rintro ⟨hp, hn⟩
    exact ⟨p.setWidth 32, hp.symm, hn⟩
  · rintro ⟨q, rfl, hn⟩
    have hq : (q.setWidth 64).setWidth 32 = q := by simp
    rw [hq]
    exact ⟨rfl, hn⟩

/-- The requests with a NaN drawn are those of FDEC with such a pattern. -/
theorem drawsNaN_iff (cmd : Command) (arg : Payload) :
    DrawsNaN cmd arg ↔ ∃ dp p, decode cmd = .op (.fdec dp) ∧ arg = .pPat p ∧ drawsNaNAt dp p = true := by
  constructor
  · rintro (⟨hd, p, harg, hn⟩ | ⟨hd, q, harg, hn⟩)
    · exact ⟨true, p, hd, harg, hn⟩
    · exact ⟨false, _, hd, harg, (drawsNaNAt_single_iff _).2 ⟨q, rfl, hn⟩⟩
  · rintro ⟨dp, p, hd, rfl, hn⟩
    cases dp with
    | true => exact .inl ⟨hd, p, rfl, hn⟩
    | false =>
      obtain ⟨q, rfl, hq⟩ := (drawsNaNAt_single_iff p).1 hn
      exact .inr ⟨hd, q, rfl, hq⟩

/-- FDEC answers a NaN pattern with the NaN drawn (R189). -/
theorem decodeFloat_of_drawsNaNAt {dp : Bool} {p : BitVec 64} (h : drawsNaNAt dp p = true) (nan : NaN64) :
    decodeFloat dp nan p = some (nanBits nan) := by
  cases dp with
  | true =>
    have hn : isNaN64 p = true := h
    simp [decodeFloat, hn]
  | false =>
    obtain ⟨hhigh, hn⟩ : p.extractLsb' 32 32 = 0 ∧ isNaN32 (p.setWidth 32) = true := by
      simpa [drawsNaNAt] using h
    simp [decodeFloat, hhigh, hn]

/-- On every other pattern FDEC does not look at the NaN drawn. -/
theorem decodeFloat_eq_of_not_drawsNaNAt {dp : Bool} {p : BitVec 64} (h : drawsNaNAt dp p ≠ true) (nan nan' : NaN64) :
    decodeFloat dp nan p = decodeFloat dp nan' p := by
  cases dp with
  | true =>
    have hn : isNaN64 p = false := Bool.eq_false_iff.2 h
    simp [decodeFloat, hn]
  | false =>
    by_cases hhigh : p.extractLsb' 32 32 = 0#32
    · have hn : isNaN32 (p.setWidth 32) = false := by simpa [drawsNaNAt, hhigh] using h
      simp [decodeFloat, hn]
    · simp [decodeFloat, hhigh]

/-- The response to FDEC on a NaN pattern (R189). -/
theorem execResponse_of_drawsNaN {cmd : Command} {arg : Payload} (h : DrawsNaN cmd arg) (nan : NaN64) :
    execResponse cmd arg nan = respOk (.pF64 (nanBits nan)) := by
  obtain ⟨dp, p, hd, rfl, hn⟩ := (drawsNaN_iff cmd arg).1 h
  simp [execResponse, hd, Instr.response, respFdec, patArg, respArg, decodeFloat_of_drawsNaNAt hn, respDomain]

/-- Only a pattern is an operand of FDEC (R70). -/
theorem patArg_eq_some {arg : Payload} {p : BitVec 64} (h : patArg arg = some p) : arg = .pPat p := by
  cases arg <;> simp_all [patArg]

/-- FDEC of a payload that is no NaN pattern does not look at the NaN drawn. -/
theorem respFdec_eq_of_not_drawsNaNAt {dp : Bool} {arg : Payload}
    (h : ∀ p, patArg arg = some p → drawsNaNAt dp p ≠ true) (nan nan' : NaN64) :
    respFdec dp nan arg = respFdec dp nan' arg := by
  unfold respFdec
  cases hp : patArg arg with
  | none => simp only [respArg]
  | some p => simp only [respArg, decodeFloat_eq_of_not_drawsNaNAt (h p hp) nan nan']

/-- The response to any other request does not depend on the NaN drawn (R30). -/
theorem execResponse_eq_of_not_drawsNaN {cmd : Command} {arg : Payload} (h : ¬ DrawsNaN cmd arg) (nan nan' : NaN64) :
    execResponse cmd arg nan = execResponse cmd arg nan' := by
  unfold execResponse
  split
  next => rfl
  next i hd =>
    cases i with
    | fdec dp =>
      refine respFdec_eq_of_not_drawsNaNAt (fun p hp hn => h ?_) nan nan'
      exact (drawsNaN_iff _ _).2 ⟨dp, p, hd, patArg_eq_some hp, hn⟩
    | _ => rfl

/-- Where a NaN is drawn, `Exec` admits OK with each binary64 NaN and nothing else (R189). -/
theorem admits_iff_of_drawsNaN {cmd : Command} {arg : Payload} (h : DrawsNaN cmd arg) (r : Resp) :
    Admits cmd arg r ↔ ∃ f : F64, isNaN64 f = true ∧ r = ⟨.ok, 0, some (.pF64 f)⟩ := by
  constructor
  · rintro ⟨nan, rfl⟩
    exact ⟨nanBits nan, (isNaN64_iff_exists_nanBits _).2 ⟨nan, rfl⟩, execResponse_of_drawsNaN h nan⟩
  · rintro ⟨f, hf, rfl⟩
    obtain ⟨nan, rfl⟩ := (isNaN64_iff_exists_nanBits f).1 hf
    exact ⟨nan, (execResponse_of_drawsNaN h nan).symm⟩

/-- Settles O7. -/
theorem theBlockAnswersWithAResponseOfExec : Obligations.TheBlockAnswersWithAResponseOfExec := by
  refine ⟨fun s t q ht hq => ⟨_, ⟨_, rfl⟩, step_of_selected ht hq⟩, fun cmd arg h => ?_,
    fun cmd arg h => admits_iff_of_drawsNaN h⟩
  refine ⟨execResponse cmd arg default, ⟨default, rfl⟩, ?_⟩
  rintro _ ⟨nan, rfl⟩
  exact execResponse_eq_of_not_drawsNaN h nan default

/-- Settles O8: both answers are `Exec`'s, which does not look at the two states' draws. -/
theorem theResponseDependsOnTheRequestAlone : Obligations.TheResponseDependsOnTheRequestAlone := by
  intro s s' t t' q q' ht hq ht' hq' hcmd harg h
  refine ⟨_, step_of_selected ht hq, ?_⟩
  rw [step_of_selected ht' hq', ← hcmd, ← harg, execResponse_eq_of_not_drawsNaN h]

end Sys2Proof.Machine
end

section
/-! PROOFS. The command word (30_encoding.md R60 to R71): its fields as arithmetic, and the decoder and the encoder as
inverses of each other. -/

namespace Sys2Proof.Machine

/-! ## Fields and layout -/

/-- A slice of a bit vector as a quotient and remainder (R10). -/
theorem extractLsb'_toNat_eq {n : Nat} (b : BitVec n) (lo len : Nat) :
    (b.extractLsb' lo len).toNat = b.toNat / 2 ^ lo % 2 ^ len := by
  rw [BitVec.extractLsb'_toNat, Nat.shiftRight_eq_div_pow]

/-- One bit of a bit vector as a quotient and remainder (R10). -/
theorem getLsbD_iff {n : Nat} (b : BitVec n) (k : Nat) : b.getLsbD k = true ↔ b.toNat / 2 ^ k % 2 = 1 := by
  rw [BitVec.getLsbD, Nat.testBit_eq_decide_div_mod_eq, decide_eq_true_iff]

/-- Settles O1: each field is a slice or a bit; the slices at the two ends need one of the two operations only. -/
theorem fieldsAreTheBitsOfTheCommand : Obligations.FieldsAreTheBitsOfTheCommand := by
  intro cmd
  have hcmd := cmd.isLt
  have hwidth : cmd.toNat / 2 ^ 16 % 2 ^ 16 = cmd.toNat / 2 ^ 16 := Nat.mod_eq_of_lt (by omega)
  have hopc : cmd.toNat / 2 ^ 0 % 2 ^ 4 = cmd.toNat % 2 ^ 4 := by rw [pow_zero, Nat.div_one]
  exact ⟨(extractLsb'_toNat_eq cmd 16 16).trans hwidth, extractLsb'_toNat_eq cmd 7 9, getLsbD_iff cmd 6,
    getLsbD_iff cmd 5, getLsbD_iff cmd 4, (extractLsb'_toNat_eq cmd 0 4).trans hopc⟩

/-- A word with RSV 0 is laid out from its own fields (R60, R65). -/
theorem layout_fieldsOf {cmd : Command} (h : (fieldsOf cmd).rsv = 0) :
    layout (fieldsOf cmd).width (fieldsOf cmd).dp (fieldsOf cmd).ll (fieldsOf cmd).le (fieldsOf cmd).opc = cmd := by
  obtain ⟨hwidth, hrsv, -, -, -, hopc⟩ := fieldsAreTheBitsOfTheCommand cmd
  have hrsv0 : cmd.toNat / 2 ^ 7 % 2 ^ 9 = 0 := by rw [← hrsv, h]; rfl
  have hdp : (fieldsOf cmd).dp.toNat = cmd.toNat / 2 ^ 6 % 2 := Nat.toNat_testBit _ _
  have hll : (fieldsOf cmd).ll.toNat = cmd.toNat / 2 ^ 5 % 2 := Nat.toNat_testBit _ _
  have hle : (fieldsOf cmd).le.toNat = cmd.toNat / 2 ^ 4 % 2 := Nat.toNat_testBit _ _
  apply BitVec.eq_of_toNat_eq
  rw [layout_toNat, hwidth, hdp, hll, hle, hopc]
  omega

/-! ## Decoding is the inverse of encoding -/

/-- The decoder sees the fields of a laid-out word (R60, R68). -/
theorem decode_layout (w : BitVec 16) (dp ll le : Bool) (opc : BitVec 4) :
    decode (layout w dp ll le opc) = decodeFields ⟨w, 0, dp, ll, le, opc⟩ := by
  simp [decode, fieldsOf_layout]

/-- A width-taking operation accepts a legal width with no flag set (R68). -/
theorem decodeWidthOp_of_legal (op : BitVec 16 → Instr) {n : BitVec 16} (h : legalWidth n = true) (opc : BitVec 4) :
    decodeWidthOp op ⟨n, 0, false, false, false, opc⟩ = .op (op n) := by
  simp [decodeWidthOp, h]

/-- Settles O2: the command word's fields are the instruction's, and its group's check accepts them. -/
theorem decodeOfEncode : Obligations.DecodeOfEncode := by
  intro i h
  cases i with
  | bits n | bpack n | tcs n | tcu n | tc n | tcsl n | tcul n | tcl n =>
    rw [encode, decode_layout]
    exact decodeWidthOp_of_legal _ h _
  | w2l le ll | l2w le ll | fdec dp | fenc dp =>
    rw [encode, decode_layout]
    rfl

/-- A width-taking operation is decoded from a word with no flag set (R67, R68). -/
theorem decodeWidthOp_unread {op : BitVec 16 → Instr} {f : Fields} {i : Instr} (h : decodeWidthOp op f = .op i) :
    f.dp = false ∧ f.ll = false ∧ f.le = false := by
  unfold decodeWidthOp at h
  split at h
  next => cases h
  next hflags =>
    simp only [Bool.or_eq_true, not_or, Bool.not_eq_true] at hflags
    obtain ⟨⟨hle, hll⟩, hdp⟩ := hflags
    exact ⟨hdp, hll, hle⟩

/-- A word aggregator operation is decoded from a word with WIDTH and DP 0 (R67, R68). -/
theorem decodeOrderOp_unread {op : Bool → Bool → Instr} {f : Fields} {i : Instr} (h : decodeOrderOp op f = .op i) :
    f.width = 0 ∧ f.dp = false := by
  unfold decodeOrderOp at h
  split at h
  next => cases h
  next hunread =>
    simp only [Bool.or_eq_true, bne_iff_ne, not_or, Bool.not_eq_true, not_not] at hunread
    exact hunread.symm

/-- A codec operation is decoded from a word with WIDTH, LE and LL 0 (R67, R68). -/
theorem decodePrecisionOp_unread {op : Bool → Instr} {f : Fields} {i : Instr} (h : decodePrecisionOp op f = .op i) :
    f.width = 0 ∧ f.ll = false ∧ f.le = false := by
  unfold decodePrecisionOp at h
  split at h
  next => cases h
  next hunread =>
    simp only [Bool.or_eq_true, bne_iff_ne, not_or, Bool.not_eq_true, not_not] at hunread
    obtain ⟨⟨hle, hll⟩, hwidth⟩ := hunread
    exact ⟨hwidth, hll, hle⟩

/-- A bit vector is the literal of its value. -/
theorem eq_ofNat_of_toNat {n k : Nat} {b : BitVec n} (h : b.toNat = k) : b = BitVec.ofNat n k := by
  rw [← h, BitVec.ofNat_toNat, BitVec.setWidth_eq]

/-- The instruction decoded from a word's fields has these fields in its own command word: those it reads because it was
given them, the others because they were found 0 (R67). -/
theorem encode_of_decodeFields {f : Fields} {i : Instr} (h : decodeFields f = .op i) :
    encode i = layout f.width f.dp f.ll f.le f.opc := by
  unfold decodeFields at h
  split at h
  case h_13 => cases h
  case h_9 hopc | h_10 hopc =>
    obtain ⟨hwidth, hdp⟩ := decodeOrderOp_unread h
    rw [decodeOrderOp_eq_op h, encode, hwidth, hdp, eq_ofNat_of_toNat hopc]
    rfl
  case h_11 hopc | h_12 hopc =>
    obtain ⟨hwidth, hll, hle⟩ := decodePrecisionOp_unread h
    rw [decodePrecisionOp_eq_op h, encode, hwidth, hll, hle, eq_ofNat_of_toNat hopc]
    rfl
  case h_1 hopc | h_2 hopc | h_3 hopc | h_4 hopc | h_5 hopc | h_6 hopc | h_7 hopc | h_8 hopc =>
    obtain ⟨hdp, hll, hle⟩ := decodeWidthOp_unread h
    obtain ⟨-, rfl⟩ := decodeWidthOp_eq_op h
    rw [encode, hdp, hll, hle, eq_ofNat_of_toNat hopc]
    rfl

/-- A legal word is the command word of what it decodes to (R71). -/
theorem encode_of_decode {cmd : Command} {i : Instr} (h : decode cmd = .op i) : encode i = cmd := by
  unfold decode at h
  split at h
  next => cases h
  next hrsv =>
    rw [encode_of_decodeFields h]
    exact layout_fieldsOf (by simpa using hrsv)

/-- The legal words are the command words of the well-formed instructions (R71). -/
theorem decode_eq_op_iff {cmd : Command} {i : Instr} : decode cmd = .op i ↔ i.WellFormed ∧ encode i = cmd := by
  constructor
  · exact fun h => ⟨wellFormed_of_decode h, encode_of_decode h⟩
  · rintro ⟨hwf, rfl⟩
    exact decodeOfEncode i hwf

/-- Settles O3: two words of one instruction are both its command word. -/
theorem decodingIsUnambiguous : Obligations.DecodingIsUnambiguous := by
  refine ⟨fun cmd => ?_, fun cmd cmd' i h h' => (encode_of_decode h).symm.trans (encode_of_decode h')⟩
  cases h : decode cmd with
  | illegal why => exact .inl ⟨why, rfl⟩
  | op i => exact .inr ⟨i, rfl, decode_eq_op_iff.1 h⟩

/-- Settles O4: the legal words are those of well-formed instructions, the widths 16 and 32 being legal for every NMAX. -/
theorem exampleWords : Obligations.ExampleWords := by
  simp only [Obligations.ExampleWords, decode_eq_op_iff, List.forall_mem_cons, List.not_mem_nil, false_imp_iff,
    implies_true, and_true]
  and_intros <;> decide

end Sys2Proof.Machine
end

section
/-! PROOFS. The assembler (30_encoding.md R76 to R78): what it accepts is legal, every instruction has its line, and
omitted modifiers stand for the defaults. -/

namespace Sys2Proof.Machine

/-! ## What the assembler accepts -/

/-- What an accepted line consists of: the one instruction its mnemonic and modifiers name, and its payload (R76). -/
theorem assemble_eq_ok {a : AsmLine} {cmd : Command} {p : Payload} (h : assemble a = .ok (cmd, p)) :
    ∃ g i, asmInstr a.mnemonic g = .ok i ∧ asmPayload (argKind i) a.operand = some p ∧ encode i = cmd := by
  unfold assemble at h
  split at h
  next => cases h
  next g hg =>
    split at h
    next => cases h
    next i hi =>
      split at h
      next => cases h
      next q hq =>
        obtain ⟨rfl, rfl⟩ := Prod.mk.inj (Except.ok.inj h)
        exact ⟨g, i, hi, hq, rfl⟩

/-- A width-taking mnemonic is accepted with a width that is legal and fits the field (R68, R76). -/
theorem asmWidthOp_eq_ok {op : BitVec 16 → Instr} {g : Modifiers} {i : Instr} (h : asmWidthOp op g = .ok i) :
    ∃ n, legalWidth n = true ∧ i = op n := by
  unfold asmWidthOp at h
  split at h
  next => cases h
  next =>
    dsimp only at h
    split at h
    next hn =>
      simp only [Bool.and_eq_true, decide_eq_true_iff] at hn
      obtain ⟨hlo, hhi⟩ := hn
      have hmax := nmax_le
      refine ⟨_, ?_, (Except.ok.inj h).symm⟩
      rw [legalWidth_iff, BitVec.toNat_ofNat, Nat.mod_eq_of_lt (by omega)]
      exact ⟨hlo, hhi⟩
    next => cases h

/-- W2L and L2W are accepted as the operation asked for. -/
theorem asmOrderOp_eq_ok {op : Bool → Bool → Instr} {g : Modifiers} {i : Instr} (h : asmOrderOp op g = .ok i) :
    ∃ le ll, i = op le ll := by
  unfold asmOrderOp at h
  split at h
  next => cases h
  next => exact ⟨_, _, (Except.ok.inj h).symm⟩

/-- FDEC and FENC are accepted as the operation asked for. -/
theorem asmPrecisionOp_eq_ok {op : Bool → Instr} {g : Modifiers} {i : Instr} (h : asmPrecisionOp op g = .ok i) :
    ∃ dp, i = op dp := by
  unfold asmPrecisionOp at h
  split at h
  next => cases h
  next => exact ⟨_, (Except.ok.inj h).symm⟩

/-- The instruction a mnemonic and its modifiers name is well-formed (R68, R76). -/
theorem wellFormed_of_asmInstr {m : Mnemonic} {g : Modifiers} {i : Instr} (h : asmInstr m g = .ok i) :
    i.WellFormed := by
  cases m with
  | bits | bpack | tcs | tcu | tc | tcsl | tcul | tcl =>
    obtain ⟨n, hn, rfl⟩ := asmWidthOp_eq_ok h
    exact hn
  | w2l | l2w =>
    obtain ⟨le, ll, rfl⟩ := asmOrderOp_eq_ok h
    rfl
  | fdec | fenc =>
    obtain ⟨dp, rfl⟩ := asmPrecisionOp_eq_ok h
    rfl

/-- The payload of an operand is of the kind asked for (R70). -/
theorem payloadKind_of_asmPayload {k : Kind} {o : AsmOperand} {p : Payload} (h : asmPayload k o = some p) :
    payloadKind p = k := by
  unfold asmPayload at h
  split at h
  case h_1 | h_2 | h_3 =>
    obtain rfl := Option.some.inj h
    rfl
  case h_9 => cases h
  all_goals
    obtain ⟨x, -, rfl⟩ := Option.map_eq_some_iff.1 h
    rfl

/-- Settles O49. -/
theorem assembledCommandsAreLegal : Obligations.AssembledCommandsAreLegal := by
  intro a cmd p h
  obtain ⟨g, i, hi, hp, hcmd⟩ := assemble_eq_ok h
  exact ⟨i, decode_eq_op_iff.2 ⟨wellFormed_of_asmInstr hi, hcmd⟩, payloadKind_of_asmPayload hp⟩

/-! ## How an instruction is spelled -/

/-- The letters R61 gives an instruction are read as its mnemonic. -/
theorem readMnemonic_instrMnemonicText (i : Instr) : readMnemonic (instrMnemonicText i) = some (instrMnemonic i) := by
  cases i <;> rfl

/-- An instruction's mnemonic and the modifiers of its fields name it (R61, R76). -/
theorem asmInstr_instrModifiers {i : Instr} (h : i.WellFormed) :
    ∃ g, gatherModifiers {} (instrModifiers i) = some g ∧ asmInstr (instrMnemonic i) g = .ok i := by
  cases i with
  | bits n | bpack n | tcs n | tcu n | tc n | tcsl n | tcul n | tcl n => exact ⟨_, rfl, asmWidthOp_of_legal _ h⟩
  | w2l le ll | l2w le ll => cases le <;> cases ll <;> exact ⟨_, rfl, rfl⟩
  | fdec dp | fenc dp => cases dp <;> exact ⟨_, rfl, rfl⟩

/-- The line that spells an instruction assembles to its command word beside the operand's payload (R76). -/
theorem assemble_instr {i : Instr} {o : AsmOperand} {p : Payload} (h : i.WellFormed)
    (hp : asmPayload (argKind i) o = some p) :
    assemble ⟨instrMnemonic i, instrModifiers i, o⟩ = .ok (encode i, p) := by
  obtain ⟨g, hg, hi⟩ := asmInstr_instrModifiers h
  exact assemble_of hg hi hp

/-- Settles O50. -/
theorem everyInstructionCanBeSpelled : Obligations.EveryInstructionCanBeSpelled :=
  fun i h => ⟨readMnemonic_instrMnemonicText i, asmInstr_instrModifiers h, fun _ _ hp => assemble_instr h hp⟩

/-! ## The source's operation names -/

/-- The default width is legal for every NMAX (R8, R77). -/
theorem legalWidth_sixteen : legalWidth 16 = true :=
  (legalWidth_iff 16).2 ⟨by decide, Nat.le_trans (by decide) nmax_ge⟩

/-- The payload of a list of words, spelled by their values (R76). -/
theorem asmPayload_words (ws : List Word) :
    asmPayload .words (.list (ws.map fun w => Int.ofNat w.toNat)) = some (.pWords ws) := by
  simp only [asmPayload, mapM_fitBits_toNat, Option.map_some]

/-- The payload of a list of longs, spelled by their values (R76). -/
theorem asmPayload_longs (xs : List Long) :
    asmPayload .longs (.list (xs.map fun x => Int.ofNat x.toNat)) = some (.pLongs xs) := by
  simp only [asmPayload, mapM_fitBits_toNat, Option.map_some]

/-- The payload of a bit pattern, spelled by its value (R76). -/
theorem asmPayload_pattern (p : BitVec 64) : asmPayload .pat (.pattern p.toNat) = some (.pPat p) := by
  simp only [asmPayload, fitBits_toNat, Option.map_some]

/-- The payload of a floating-point literal (R76). -/
theorem asmPayload_float {lit : FloatLit} {f : F64} (h : floatLitBits lit = some f) :
    asmPayload .f64 (.float lit) = some (.pF64 f) := by
  simp only [asmPayload, h, Option.map_some]

/-- The raw bits of a datum are that datum (R76). -/
theorem floatLitBits_raw (f : F64) : floatLitBits (.raw f.toNat) = some f := by
  simp [floatLitBits, f.isLt]

/-- `big_endian` and `long_long` give the modifiers of the fields they name; an omitted one its default (R77, R78). -/
theorem orderModifiers_eq (be ll : Option Bool) :
    orderModifiers be ll = instrModifiers (.w2l (!be.getD true) (ll.getD false)) := by
  unfold orderModifiers
  cases be.getD true <;> rfl

/-- `words_to_longs` with its arguments given or omitted (R78). -/
theorem assemble_wordsToLongs (ws : List Word) (be ll : Option Bool) :
    assemble (expandShorthand (.wordsToLongs (ws.map fun w => Int.ofNat w.toNat) be ll)) =
      .ok (encode (.w2l (!be.getD true) (ll.getD false)), .pWords ws) := by
  rw [expandShorthand, orderModifiers_eq]
  exact assemble_instr rfl (asmPayload_words ws)

/-- `longs_to_words` with its arguments given or omitted (R78). -/
theorem assemble_longsToWords (xs : List Long) (be ll : Option Bool) :
    assemble (expandShorthand (.longsToWords (xs.map fun x => Int.ofNat x.toNat) be ll)) =
      .ok (encode (.l2w (!be.getD true) (ll.getD false)), .pLongs xs) := by
  rw [expandShorthand, orderModifiers_eq]
  exact assemble_instr (i := .l2w _ _) rfl (asmPayload_longs xs)

/-- `decode_float` with its precision given or omitted (R78). -/
theorem assemble_decodeFloat (p : BitVec 64) (dp : Option Bool) :
    assemble (expandShorthand (.decodeFloat p.toNat dp)) = .ok (encode (.fdec (dp.getD false)), .pPat p) :=
  assemble_instr (i := .fdec (dp.getD false)) rfl (asmPayload_pattern p)

/-- `encode_float` with its precision given or omitted (R78). -/
theorem assemble_encodeFloat {lit : FloatLit} {f : F64} (h : floatLitBits lit = some f) (dp : Option Bool) :
    assemble (expandShorthand (.encodeFloat lit dp)) = .ok (encode (.fenc (dp.getD false)), .pF64 f) :=
  assemble_instr (i := .fenc (dp.getD false)) rfl (asmPayload_float h)

/-- Settles O51: each name expands to the line that spells its instruction. -/
theorem shorthandsAssemble : Obligations.ShorthandsAssemble := by
  intro v k n h
  have h16 := legalWidth_sixteen
  refine ⟨assemble_instr (i := .bits n) h rfl, assemble_instr (i := .bits 16) h16 rfl,
    assemble_instr (i := .tcs n) h rfl, assemble_instr (i := .tcs 16) h16 rfl,
    assemble_instr (i := .tcu n) h rfl, assemble_instr (i := .tcu 16) h16 rfl, ?_, ?_, ?_, ?_, ?_⟩
  · exact fun ws be ll => ⟨assemble_wordsToLongs ws (some be) (some ll), assemble_wordsToLongs ws (some be) none,
      assemble_wordsToLongs ws none none⟩
  · exact fun xs be ll => ⟨assemble_longsToWords xs (some be) (some ll), assemble_longsToWords xs (some be) none,
      assemble_longsToWords xs none none⟩
  · exact fun p dp => ⟨assemble_decodeFloat p (some dp), assemble_decodeFloat p none⟩
  · exact fun f dp => ⟨assemble_encodeFloat (floatLitBits_raw f) (some dp), assemble_encodeFloat (floatLitBits_raw f) none⟩
  · exact fun lit f dp hf => ⟨assemble_encodeFloat hf (some dp), assemble_encodeFloat hf none⟩

/-! ## The defaults -/

/-- Two lines of one operand whose modifiers name one instruction assemble alike. -/
theorem assemble_congr {m : Mnemonic} {ms ms' : List Modifier} {g g' : Modifiers}
    (hg : gatherModifiers {} ms = some g) (hg' : gatherModifiers {} ms' = some g')
    (hi : asmInstr m g = asmInstr m g') (o : AsmOperand) : assemble ⟨m, ms, o⟩ = assemble ⟨m, ms', o⟩ := by
  simp only [assemble, hg, hg', hi]

/-- Settles O48: with a modifier omitted or its default given, the instruction named is the same. -/
theorem assemblerDefaults : Obligations.AssemblerDefaults := by
  intro o
  simp only [List.forall_mem_cons, List.not_mem_nil, false_imp_iff, implies_true, and_true]
  and_intros <;> exact assemble_congr (by rfl) (by rfl) (by rfl) o

end Sys2Proof.Machine
end

section
/-! PROOFS. The Bit Vector Codec (40_bit_vector.md R100 to R102): the list of BITS and the integer of BPACK, bit by bit,
and the statements that follow. -/

namespace Sys2Proof.Machine

/-! ## The list of BITS -/

/-- R9's bit is the library's. -/
theorem bitAt_eq_testBit (v i : Nat) : bitAt v i = v.testBit i := Nat.testBit_eq_decide_div_mod_eq.symm

@[simp] theorem length_bitsFromInt (n v : Nat) : (bitsFromInt n v).length = n := by
  simp [bitsFromInt]

@[simp] theorem getElem_bitsFromInt {n v i : Nat} (h : i < (bitsFromInt n v).length) :
    (bitsFromInt n v)[i] = bitAt v i := by
  simp [bitsFromInt]

/-! ## The integer of BPACK -/

/-- A list one position further up spells twice the integer. -/
theorem packFrom_succ (i : Nat) (b : List Bool) : packFrom (i + 1) b = 2 * packFrom i b := by
  induction b generalizing i with
  | nil => rfl
  | cons x bs ih =>
    rw [packFrom, packFrom, ih, Nat.mul_add, mul_ite, Nat.pow_succ', Nat.mul_zero]

/-- The first element is the lowest bit, the others the bits above it. -/
theorem intFromBits_cons (x : Bool) (bs : List Bool) : intFromBits (x :: bs) = Nat.bit x (intFromBits bs) := by
  rw [intFromBits, packFrom, packFrom_succ, Nat.bit_val, Nat.add_comm]
  cases x <;> rfl

/-- Bit `i` of the integer is element `i`, and 0 past the end of the list. -/
theorem testBit_intFromBits (b : List Bool) (i : Nat) : (intFromBits b).testBit i = b.getD i false := by
  induction b generalizing i with
  | nil => exact Nat.zero_testBit i
  | cons x bs ih =>
    rw [intFromBits_cons]
    cases i with
    | zero => exact Nat.testBit_bit_zero x _
    | succ i => exact (Nat.testBit_bit_succ i x _).trans (ih i)

/-- The integer of a list fits as many bits as the list has elements. -/
theorem intFromBits_lt (b : List Bool) : intFromBits b < 2 ^ b.length := by
  refine Nat.lt_pow_two_of_testBit _ fun i hi => ?_
  rw [testBit_intFromBits, List.getD_eq_default _ _ hi]

/-- Element `i` of a list is bit `i` of its integer (R101, R9). -/
theorem getElem?_eq_bitAt_intFromBits {b : List Bool} {i : Nat} (h : i < b.length) :
    b[i]? = some (bitAt (intFromBits b) i) := by
  rw [bitAt_eq_testBit, testBit_intFromBits, List.getD_eq_getElem _ _ h, List.getElem?_eq_getElem h]

/-! ## The laws -/

/-- BPACK after BITS keeps the low `n` bits (R102). -/
theorem intFromBits_bitsFromInt (n v : Nat) : intFromBits (bitsFromInt n v) = v % 2 ^ n := by
  refine Nat.eq_of_testBit_eq fun i => ?_
  rw [testBit_intFromBits, Nat.testBit_mod_two_pow]
  by_cases hi : i < n
  · simp [hi, bitAt_eq_testBit]
  · simp [hi]

/-- BITS after BPACK is the list (R102). -/
theorem bitsFromInt_intFromBits {n : Nat} {b : List Bool} (h : b.length = n) : bitsFromInt n (intFromBits b) = b := by
  refine List.ext_getElem ((length_bitsFromInt _ _).trans h.symm) fun i _ hb => ?_
  rw [getElem_bitsFromInt, bitAt_eq_testBit, testBit_intFromBits, List.getD_eq_getElem _ _ hb]

/-- Settles O27: the two are inverse to each other between the values below 2^n and the lists of length n. -/
theorem bitVectorLaws : Obligations.BitVectorLaws := by
  intro n
  refine ⟨intFromBits_bitsFromInt n, fun b hb => bitsFromInt_intFromBits hb, ?_⟩
  have hinv : Set.InvOn intFromBits (bitsFromInt n) { v | v < 2 ^ n } { b | b.length = n } :=
    ⟨fun v hv => (intFromBits_bitsFromInt n v).trans (Nat.mod_eq_of_lt hv), fun b hb => bitsFromInt_intFromBits hb⟩
  refine hinv.bijOn (fun v _ => length_bitsFromInt n v) fun b hb => ?_
  obtain rfl := hb
  exact intFromBits_lt b

/-! ## The responses -/

/-- BITS answers OK to every natural number (R100). -/
theorem respBits_pNat (n v : Nat) : respBits n (.pNat v) = respOk (.pBools (bitsFromInt n v)) := rfl

/-- BPACK answers OK to a list of length `n` within LMAX (R101). -/
theorem respBpack_of_length {n : Nat} {b : List Bool} (hn : b.length = n) (hmax : tooLong b.length = false) :
    respBpack n (.pBools b) = respOk (.pNat (intFromBits b)) := by
  simp [respBpack, boolsArg, boundedList_of_fits hmax, respArg, hn]

/-- BPACK answers SHAPE_ERROR to a list of another length, within LMAX or not (R101, R223). -/
theorem respBpack_of_length_ne {n : Nat} {b : List Bool} (hn : b.length ≠ n) :
    respBpack n (.pBools b) = respShape := by
  cases hmax : tooLong b.length with
  | true => simp [respBpack, boolsArg, boundedList, respArg, hmax]
  | false => simp [respBpack, boolsArg, boundedList, respArg, hmax, hn]

/-- Settles O25: the answer is the list BITS computes, whose elements are read by position. -/
theorem bitsAnswersTheLowBits : Obligations.BitsAnswersTheLowBits := by
  intro n s q v hq harg
  refine ⟨bitsFromInt n.toNat v, ?_, length_bitsFromInt _ _, fun i hi => ?_⟩
  · rw [exec_of_selected hq, harg, Instr.response, respBits_pNat]
    rfl
  · have hlen : i < (bitsFromInt n.toNat v).length := by rwa [length_bitsFromInt]
    rw [List.getElem?_eq_getElem hlen, getElem_bitsFromInt]
    rfl

/-- Settles O26: the answer is the integer BPACK computes, whose bits are the elements, or SHAPE_ERROR. -/
theorem bpackAnswersTheInteger : Obligations.BpackAnswersTheInteger := by
  intro n s q b hq harg
  refine ⟨fun hn hmax => ⟨intFromBits b, ?_, ?_, fun i hi => ?_⟩, fun hn => ?_⟩
  · rw [exec_of_selected hq, harg, Instr.response, respBpack_of_length hn hmax]
    rfl
  · rw [← hn]
    exact intFromBits_lt b
  · exact getElem?_eq_bitAt_intFromBits (hn ▸ hi)
  · rw [exec_of_selected hq, harg, Instr.response, respBpack_of_length_ne hn]
    rfl

end Sys2Proof.Machine
end

section
/-! PROOFS. The Two's-Complement Codec (41_twos_complement.md R120 to R128): each conversion as a function on its
domain, the laws between these functions, and the responses of the scalar and the list forms. -/

namespace Sys2Proof.Machine

/-! ## The conversions on their domains -/

/-- The signed reading of an unsigned value (R121). -/
def signedOf (n : Nat) (v : Int) : Int := if v ≥ 2 ^ (n - 1) then v - 2 ^ n else v

/-- The unsigned reading of a signed value (R122). -/
def unsignedOf (n : Nat) (v : Int) : Int := if v < 0 then v + 2 ^ n else v

/-- The other reading of a value: the unsigned one of a negative value, the signed one of any other (R123). -/
def otherOf (n : Nat) (v : Int) : Int := if v < 0 then v + 2 ^ n else signedOf n v

/-- The conversion `f` has the domain `[lo, hi]` and is the function `g` there. -/
structure ConvertsOn (f : Int → Option Int) (lo hi : Int) (g : Int → Int) : Prop where
  inside : ∀ v, lo ≤ v → v ≤ hi → f v = some (g v)
  outside : ∀ v, v < lo ∨ v > hi → f v = none

/-- What a conversion answers, it answers to a value of its domain. -/
theorem ConvertsOn.of_eq_some {f : Int → Option Int} {lo hi v r : Int} {g : Int → Int} (h : ConvertsOn f lo hi g)
    (hr : f v = some r) : lo ≤ v ∧ v ≤ hi ∧ g v = r := by
  by_cases hout : v < lo ∨ v > hi
  · cases (h.outside v hout).symm.trans hr
  · obtain ⟨hlo, hhi⟩ : lo ≤ v ∧ v ≤ hi := by omega
    exact ⟨hlo, hhi, Option.some.inj ((h.inside v hlo hhi).symm.trans hr)⟩

/-- TCS has the domain U(n) (R121). -/
theorem toSigned_convertsOn (n : Nat) : ConvertsOn (toSigned n) 0 (2 ^ n - 1) (signedOf n) where
  inside v hlo hhi := by
    rw [toSigned, if_pos ((inUnsigned_iff n v).2 ⟨hlo, hhi⟩), twoPow_eq, twoPow_eq, signedOf, apply_ite some]
  outside v hv := by
    have hout : ¬ inUnsigned n v = true := by rw [inUnsigned_iff]; omega
    rw [toSigned, if_neg hout]

/-- TCU has the domain S(n) (R122). -/
theorem toUnsigned_convertsOn (n : Nat) :
    ConvertsOn (toUnsigned n) (-2 ^ (n - 1)) (2 ^ (n - 1) - 1) (unsignedOf n) where
  inside v hlo hhi := by
    rw [toUnsigned, if_pos ((inSigned_iff n v).2 ⟨hlo, hhi⟩), twoPow_eq, unsignedOf, apply_ite some]
  outside v hv := by
    have hout : ¬ inSigned n v = true := by rw [inSigned_iff]; omega
    rw [toUnsigned, if_neg hout]

/-- TC has the domain `[-2^(n-1), 2^n - 1]`, S(n) and U(n) together (R123). -/
theorem toOther_convertsOn (n : Nat) : ConvertsOn (toOther n) (-2 ^ (n - 1)) (2 ^ n - 1) (otherOf n) := by
  have hhalf : (0 : Int) < 2 ^ (n - 1) := pow_pos two_pos _
  have hfull : (0 : Int) < 2 ^ n := pow_pos two_pos _
  constructor
  · intro v hlo hhi
    rw [toOther, otherOf]
    by_cases hneg : v < 0
    · rw [if_pos hneg, if_pos hneg, (toUnsigned_convertsOn n).inside v hlo (by omega), unsignedOf, if_pos hneg]
    · rw [if_neg hneg, if_neg hneg, (toSigned_convertsOn n).inside v (by omega) hhi]
  · intro v hv
    rw [toOther]
    by_cases hneg : v < 0
    · rw [if_pos hneg, (toUnsigned_convertsOn n).outside v (by omega)]
    · rw [if_neg hneg, (toSigned_convertsOn n).outside v (by omega)]

/-! ## The laws -/

section Laws

variable {n : Nat} {v : Int}

/-- U(n) is twice as long as either half of S(n). -/
theorem two_pow_eq_two_mul_half (hn : 1 ≤ n) : (2 : Int) ^ n = 2 * 2 ^ (n - 1) :=
  (mul_pow_sub_one (Nat.one_le_iff_ne_zero.1 hn) 2).symm

/-- The signed reading of a value of U(n) is in S(n) (R120). -/
theorem signedOf_mem (hn : 1 ≤ n) (hlo : 0 ≤ v) (hhi : v ≤ 2 ^ n - 1) :
    -2 ^ (n - 1) ≤ signedOf n v ∧ signedOf n v ≤ 2 ^ (n - 1) - 1 := by
  have hdouble := two_pow_eq_two_mul_half hn
  unfold signedOf
  split <;> omega

/-- The unsigned reading of a value of S(n) is in U(n) (R120). -/
theorem unsignedOf_mem (hn : 1 ≤ n) (hlo : -2 ^ (n - 1) ≤ v) (hhi : v ≤ 2 ^ (n - 1) - 1) :
    0 ≤ unsignedOf n v ∧ unsignedOf n v ≤ 2 ^ n - 1 := by
  have hdouble := two_pow_eq_two_mul_half hn
  unfold unsignedOf
  split <;> omega

/-- The other reading of a value of TC's domain is in that domain. -/
theorem otherOf_mem (hn : 1 ≤ n) (hlo : -2 ^ (n - 1) ≤ v) (hhi : v ≤ 2 ^ n - 1) :
    -2 ^ (n - 1) ≤ otherOf n v ∧ otherOf n v ≤ 2 ^ n - 1 := by
  have hdouble := two_pow_eq_two_mul_half hn
  unfold otherOf signedOf
  split_ifs <;> omega

/-- A value of U(n) is the unsigned reading of its signed reading. -/
theorem unsignedOf_signedOf (hlo : 0 ≤ v) (hhi : v ≤ 2 ^ n - 1) : unsignedOf n (signedOf n v) = v := by
  unfold unsignedOf signedOf
  split_ifs <;> omega

/-- A value of S(n) is the signed reading of its unsigned reading. -/
theorem signedOf_unsignedOf (hn : 1 ≤ n) (hlo : -2 ^ (n - 1) ≤ v) (hhi : v ≤ 2 ^ (n - 1) - 1) :
    signedOf n (unsignedOf n v) = v := by
  have hdouble := two_pow_eq_two_mul_half hn
  unfold unsignedOf signedOf
  split_ifs <;> omega

/-- The other reading of the other reading is the value: a negative value comes back from the upper half of U(n), a
value there from below 0, and any other stays. -/
theorem otherOf_otherOf (hn : 1 ≤ n) (hlo : -2 ^ (n - 1) ≤ v) (hhi : v ≤ 2 ^ n - 1) :
    otherOf n (otherOf n v) = v := by
  have hdouble := two_pow_eq_two_mul_half hn
  unfold otherOf signedOf
  split_ifs <;> omega

/-- A value and its signed reading are congruent. -/
theorem signedOf_modEq (n : Nat) (v : Int) : signedOf n v ≡ v [ZMOD 2 ^ n] := by
  unfold signedOf
  split
  · exact Int.sub_modulus_modEq_iff.2 rfl
  · rfl

/-- A value and its unsigned reading are congruent. -/
theorem unsignedOf_modEq (n : Nat) (v : Int) : unsignedOf n v ≡ v [ZMOD 2 ^ n] := by
  unfold unsignedOf
  split
  · exact Int.add_modEq_right
  · rfl

/-- The signed reading is sign extension (R11). -/
theorem signedOf_toNat (hn : 1 ≤ n) (b : BitVec n) : signedOf n b.toNat = b.toInt := by
  have hdouble := two_pow_eq_two_mul_half hn
  have hcast : ((2 ^ n : Nat) : Int) = 2 ^ n := Nat.cast_pow 2 n
  rw [signedOf, BitVec.toInt_eq_toNat_cond]
  generalize (2 ^ n : Nat) = m at hcast ⊢
  split_ifs <;> omega

end Laws

/-- Settles O34: the laws between the readings, on the domains of the conversions. -/
theorem twosComplementLaws : Obligations.TwosComplementLaws := by
  intro n hn
  have hs := toSigned_convertsOn n
  have hu := toUnsigned_convertsOn n
  have ho := toOther_convertsOn n
  refine ⟨fun v hlo hhi => ?_, fun v hlo hhi => ?_, fun v hlo hhi => ?_, ?_, fun b => ?_, fun v r hr => ?_,
    fun v r hr => ?_, hs.outside, hu.outside, ho.outside⟩
  · obtain ⟨hlo', hhi'⟩ := signedOf_mem hn hlo hhi
    rw [hs.inside v hlo hhi, Option.bind_some, hu.inside _ hlo' hhi', unsignedOf_signedOf hlo hhi]
  · obtain ⟨hlo', hhi'⟩ := unsignedOf_mem hn hlo hhi
    rw [hu.inside v hlo hhi, Option.bind_some, hs.inside _ hlo' hhi', signedOf_unsignedOf hn hlo hhi]
  · obtain ⟨hlo', hhi'⟩ := otherOf_mem hn hlo hhi
    rw [ho.inside v hlo hhi, Option.bind_some, ho.inside _ hlo' hhi', otherOf_otherOf hn hlo hhi]
  · rintro v r (hr | hr)
    · obtain ⟨-, -, rfl⟩ := hs.of_eq_some hr
      exact signedOf_modEq n v
    · obtain ⟨-, -, rfl⟩ := hu.of_eq_some hr
      exact unsignedOf_modEq n v
  · have hlt : (b.toNat : Int) < 2 ^ n := by exact_mod_cast b.isLt
    rw [hs.inside _ (Int.natCast_nonneg _) (Int.le_sub_one_of_lt hlt), signedOf_toNat hn]
  · obtain ⟨hlo, hhi, rfl⟩ := hs.of_eq_some hr
    exact signedOf_mem hn hlo hhi
  · obtain ⟨hlo, hhi, rfl⟩ := hu.of_eq_some hr
    exact unsignedOf_mem hn hlo hhi

/-! ## The responses -/

section Responses

variable {f : Int → Option Int} {lo hi : Int} {g : Int → Int} {i : Instr} {s : State} {q : Req}

/-- A scalar conversion answers its value on its domain, and RANGE_ERROR outside it (R121 to R123). -/
theorem respScalar_pInt (h : ConvertsOn f lo hi g) (v : Int) :
    respScalar f (.pInt v) = if v < lo ∨ v > hi then respRange 0 else respOk (.pInt (g v)) := by
  rw [respScalar, intArg, respArg]
  split
  next hout => rw [h.outside v hout, respDomain]
  next hin => rw [h.inside v (by omega) (by omega), respDomain]

/-- An instruction that is a scalar conversion answers so. -/
theorem exec_of_respScalar (h : ConvertsOn f lo hi g) (hresp : ∀ nan arg, i.response nan arg = respScalar f arg)
    (hq : s.selected = some q) {v : Int} (harg : q.arg = .pInt v) :
    exec i s = .next (s.answer q (if v < lo ∨ v > hi then respRange 0 else respOk (.pInt (g v)))) := by
  rw [exec_of_selected hq, hresp, harg, respScalar_pInt h]

/-- A list within LMAX reaches the conversion of its elements (R124). -/
theorem respListForm_pInts (f : Int → Option Int) {l : List Int} (hfit : tooLong l.length = false) :
    respListForm f (.pInts l) = respList .pInts (listMapFrom f 0 l) := by
  rw [respListForm, intsArg, boundedList_of_fits hfit, respArg]

/-- The list form converts a list of values of the domain (R124). -/
theorem listMapFrom_of_forall_mem (h : ConvertsOn f lo hi g) {l : List Int} (hl : ∀ v ∈ l, lo ≤ v ∧ v ≤ hi) :
    listMapFrom f 0 l = .ok (l.map g) := by
  rw [listMapFrom_ok_iff, List.map_map]
  exact List.map_congr_left fun v hv => h.inside v (hl v hv).1 (hl v hv).2

/-- The list form names the first element outside the domain (R124). -/
theorem listMapFrom_of_split (h : ConvertsOn f lo hi g) {pre post : List Int} {v : Int}
    (hpre : ∀ w ∈ pre, lo ≤ w ∧ w ≤ hi) (hv : v < lo ∨ v > hi) :
    listMapFrom f 0 (pre ++ v :: post) = .error pre.length := by
  rw [listMapFrom_error f 0 pre post v (fun w hw => ⟨_, h.inside w (hpre w hw).1 (hpre w hw).2⟩) (h.outside v hv),
    Nat.zero_add]

/-- An instruction that is a list form answers so: the list converted, or the position of the first failing element. -/
theorem exec_of_respListForm (h : ConvertsOn f lo hi g) (hresp : ∀ nan arg, i.response nan arg = respListForm f arg)
    (hq : s.selected = some q) {l : List Int} (harg : q.arg = .pInts l) (hfit : tooLong l.length = false) :
    ((∀ v ∈ l, lo ≤ v ∧ v ≤ hi) → exec i s = .next (s.answer q (respOk (.pInts (l.map g))))) ∧
    (∀ pre v post, l = pre ++ v :: post → (∀ w ∈ pre, lo ≤ w ∧ w ≤ hi) → (v < lo ∨ v > hi) →
      exec i s = .next (s.answer q (respRange pre.length))) := by
  rw [exec_of_selected hq, hresp, harg, respListForm_pInts f hfit]
  constructor
  · intro hl
    rw [listMapFrom_of_forall_mem h hl, respList]
  · rintro pre v post rfl hpre hv
    rw [listMapFrom_of_split h hpre hv, respList]

end Responses

/-- Settles O31. -/
theorem tcslConvertsAList : Obligations.TcslConvertsAList :=
  fun n _ _ _ hq harg hfit => exec_of_respListForm (toSigned_convertsOn n.toNat) (fun _ _ => rfl) hq harg hfit

/-- Settles O32. -/
theorem tculConvertsAList : Obligations.TculConvertsAList :=
  fun n _ _ _ hq harg hfit => exec_of_respListForm (toUnsigned_convertsOn n.toNat) (fun _ _ => rfl) hq harg hfit

/-- Settles O33. -/
theorem tclConvertsAList : Obligations.TclConvertsAList :=
  fun n _ _ _ hq harg hfit => exec_of_respListForm (toOther_convertsOn n.toNat) (fun _ _ => rfl) hq harg hfit

/-- Settles O28: R121 gives a response for each branch of the signed reading. -/
theorem tcsConvertsToSigned : Obligations.TcsConvertsToSigned := by
  intro n s q v hq harg
  rw [exec_of_respScalar (toSigned_convertsOn n.toNat) (fun _ _ => rfl) hq harg, signedOf]
  split_ifs <;> rfl

/-- Settles O29: R122 gives a response for each branch of the unsigned reading. -/
theorem tcuConvertsToUnsigned : Obligations.TcuConvertsToUnsigned := by
  intro n s q v hq harg
  rw [exec_of_respScalar (toUnsigned_convertsOn n.toNat) (fun _ _ => rfl) hq harg, unsignedOf]
  split_ifs <;> rfl

/-- Settles O30: R123 gives a response for each branch of the two readings. -/
theorem tcConvertsToTheOtherReading : Obligations.TcConvertsToTheOtherReading := by
  intro n s q v hq harg
  rw [exec_of_respScalar (toOther_convertsOn n.toNat) (fun _ _ => rfl) hq harg, otherOf, signedOf]
  split_ifs <;> rfl

end Sys2Proof.Machine
end

section
/-! PROOFS. The Word Aggregator (42_word_aggregator.md R150 to R154): the chunks of a list, the value of one chunk and
the words of one value as inverses of each other, and the statements that follow. -/

namespace Sys2Proof.Machine

/-! ## The chunks of a list -/

theorem chunkSize_pos (ll : Bool) : 0 < chunkSize ll := by
  cases ll <;> decide

/-- Chunk `j` is the `k` elements from position `j·k` on. -/
theorem chunks_eq_map_range (k m : Nat) (ws : List Word) :
    chunks k m ws = (List.range m).map fun j => (ws.drop (j * k)).take k := by
  induction m generalizing ws with
  | zero => rfl
  | succ m ih => simp [chunks, ih, List.range_succ_eq_map, Nat.succ_mul, Nat.add_comm]

@[simp] theorem length_chunks (k m : Nat) (ws : List Word) : (chunks k m ws).length = m := by
  simp [chunks_eq_map_range]

/-- Chunk `j` by its position. -/
theorem getElem?_chunks {k m j : Nat} (h : j < m) (ws : List Word) :
    (chunks k m ws)[j]? = some ((ws.drop (j * k)).take k) := by
  simp [chunks_eq_map_range, h]

/-- Where the list has `m` whole chunks, each chunk has `k` words. -/
theorem length_of_mem_chunks {k m : Nat} {ws c : List Word} (h : m * k ≤ ws.length) (hc : c ∈ chunks k m ws) :
    c.length = k := by
  induction m generalizing ws with
  | zero => cases hc
  | succ m ih =>
    rw [Nat.succ_mul] at h
    rcases List.mem_cons.1 hc with rfl | hc
    · rw [List.length_take]
      omega
    · exact ih (by rw [List.length_drop]; omega) hc

/-- The chunks one after the other are the list up to their end. -/
theorem flatten_chunks (k m : Nat) (ws : List Word) : (chunks k m ws).flatten = ws.take (m * k) := by
  induction m generalizing ws with
  | zero => simp [chunks]
  | succ m ih => rw [chunks, List.flatten_cons, ih, Nat.succ_mul, Nat.add_comm, List.take_add]

/-- Lists of `k` words one after the other have these lists as their chunks. -/
theorem chunks_flatten {k : Nat} {cs : List (List Word)} (h : ∀ c ∈ cs, c.length = k) :
    chunks k cs.length cs.flatten = cs := by
  induction cs with
  | nil => rfl
  | cons c cs ih =>
    obtain ⟨hc, hcs⟩ := List.forall_mem_cons.1 h
    rw [List.length_cons, List.flatten_cons, chunks, List.take_left' hc, List.drop_left' hc, ih hcs]

/-- In lists of `k` words one after the other, word `t` of list `j` stands at position `k·j + t`. -/
theorem getElem?_flatten_of_length {k j t : Nat} {cs : List (List Word)} {l : List Word}
    (hk : ∀ l ∈ cs, l.length = k) (hl : cs[j]? = some l) (ht : t < k) : cs.flatten[k * j + t]? = l[t]? := by
  have hj := (List.getElem?_eq_some_iff.1 hl).1
  have hchunk := (getElem?_chunks hj cs.flatten (k := k)).symm
  rw [chunks_flatten hk, hl] at hchunk
  rw [← Option.some.inj hchunk, List.getElem?_take_of_lt ht, List.getElem?_drop, Nat.mul_comm]

/-! ## The value of one chunk, and the words of one value -/

/-- The value of one chunk, in its 64-bit lane (R152). -/
def joinChunk (le ll : Bool) (c : List Word) : Long := BitVec.ofNat 64 (weightedSum le (chunkSize ll) 0 c)

/-- W2L joins each whole chunk (R152). -/
theorem wordsToLongs_eq (le ll : Bool) (ws : List Word) :
    wordsToLongs le ll ws = (chunks (chunkSize ll) (ws.length / chunkSize ll) ws).map (joinChunk le ll) := rfl

/-- The weighted sum, position by position (R152). -/
theorem weightedSum_eq_sum (le : Bool) (k t : Nat) (c : List Word) :
    weightedSum le k t c =
      ((List.range c.length).map fun i => (c.getD i 0).toNat * 2 ^ wordOffset le k (t + i)).sum := by
  induction c generalizing t with
  | nil => rfl
  | cons w ws ih =>
    simp [weightedSum, ih, weight, List.range_succ_eq_map, Function.comp_def, Nat.add_assoc, Nat.add_comm 1]

/-- A long is in range when it is below 2^32, and a long-long always (R153). -/
theorem longInRange_iff (ll : Bool) (x : Long) : longInRange ll x = true ↔ (ll = false → x.toNat < 2 ^ 32) := by
  have hx := x.isLt
  have hhigh : x.extractLsb' 32 32 = 0 ↔ x.toNat < 2 ^ 32 := by
    rw [← BitVec.toNat_inj, extractLsb'_toNat_eq, BitVec.ofNat_eq_ofNat, BitVec.toNat_zero]
    omega
  simp only [longInRange, Bool.or_eq_true, beq_iff_eq, hhigh]
  cases ll <;> simp

/-- The values L2W accepts, in the words of R153. -/
theorem forall_longInRange {ll : Bool} {xs : List Long} (h : ll = false → ∀ x ∈ xs, x.toNat < 2 ^ 32) :
    ∀ x ∈ xs, longInRange ll x = true :=
  fun x hx => (longInRange_iff ll x).2 fun hll => h hll x hx

@[simp] theorem length_splitLong (le ll : Bool) (x : Long) : (splitLong le ll x).length = chunkSize ll := by
  simp [splitLong]

/-- Word `t` of a value (R153). -/
theorem getElem?_splitLong (le : Bool) {ll : Bool} {t : Nat} (h : t < chunkSize ll) (x : Long) :
    (splitLong le ll x)[t]? = some (x.extractLsb' (wordOffset le (chunkSize ll) t) 16) := by
  simp [splitLong, h]

/-! One equation for each chunk size: the sum of a chunk, and the words of a value. -/

theorem weightedSum_long (le : Bool) (a b : Word) :
    weightedSum le (chunkSize false) 0 [a, b] =
      if le then a.toNat + b.toNat * 2 ^ 16 else a.toNat * 2 ^ 16 + b.toNat := by
  cases le <;> simp [weightedSum, weight, wordOffset, chunkSize]

theorem weightedSum_longLong (le : Bool) (a b c d : Word) :
    weightedSum le (chunkSize true) 0 [a, b, c, d] =
      if le then a.toNat + b.toNat * 2 ^ 16 + c.toNat * 2 ^ 32 + d.toNat * 2 ^ 48
      else a.toNat * 2 ^ 48 + b.toNat * 2 ^ 32 + c.toNat * 2 ^ 16 + d.toNat := by
  cases le <;> simp [weightedSum, weight, wordOffset, chunkSize, Nat.add_assoc]

theorem splitLong_long (le : Bool) (x : Long) :
    splitLong le false x =
      if le then [x.extractLsb' 0 16, x.extractLsb' 16 16] else [x.extractLsb' 16 16, x.extractLsb' 0 16] := by
  cases le <;> rfl

theorem splitLong_longLong (le : Bool) (x : Long) :
    splitLong le true x =
      if le then [x.extractLsb' 0 16, x.extractLsb' 16 16, x.extractLsb' 32 16, x.extractLsb' 48 16]
      else [x.extractLsb' 48 16, x.extractLsb' 32 16, x.extractLsb' 16 16, x.extractLsb' 0 16] := by
  cases le <;> rfl

/-- A list of chunk length is two words or four (R150). -/
theorem chunk_cases {ll : Bool} {c : List Word} (h : c.length = chunkSize ll) :
    (ll = false ∧ ∃ w₀ w₁, c = [w₀, w₁]) ∨ (ll = true ∧ ∃ w₀ w₁ w₂ w₃, c = [w₀, w₁, w₂, w₃]) := by
  cases ll with
  | false => exact .inl ⟨rfl, List.length_eq_two.1 h⟩
  | true =>
    match c, h with
    | [w₀, w₁, w₂, w₃], _ => exact .inr ⟨rfl, w₀, w₁, w₂, w₃, rfl⟩

/-- A chunk's value fits the bits its words have (R150). -/
theorem weightedSum_lt (le : Bool) {ll : Bool} {c : List Word} (h : c.length = chunkSize ll) :
    weightedSum le (chunkSize ll) 0 c < 2 ^ (16 * chunkSize ll) := by
  rcases chunk_cases h with ⟨rfl, w₀, w₁, rfl⟩ | ⟨rfl, w₀, w₁, w₂, w₃, rfl⟩
  · rw [weightedSum_long]
    cases le <;> simp [chunkSize] <;> omega
  · rw [weightedSum_longLong]
    cases le <;> simp [chunkSize] <;> omega

/-- No word is lost in the lane (R152). -/
theorem toNat_joinChunk (le : Bool) {ll : Bool} {c : List Word} (h : c.length = chunkSize ll) :
    (joinChunk le ll c).toNat = weightedSum le (chunkSize ll) 0 c := by
  have hlane : 2 ^ (16 * chunkSize ll) ≤ 2 ^ 64 := by cases ll <;> decide
  rw [joinChunk, BitVec.toNat_ofNat, Nat.mod_eq_of_lt ((weightedSum_lt le h).trans_le hlane)]

/-- The value of a chunk is in range (R152). -/
theorem longInRange_joinChunk (le : Bool) {ll : Bool} {c : List Word} (h : c.length = chunkSize ll) :
    longInRange ll (joinChunk le ll c) = true := by
  rw [longInRange_iff, toNat_joinChunk le h]
  rintro rfl
  exact weightedSum_lt le h

/-- A word of a value, as a quotient and remainder (R10). -/
theorem extractLsb'_eq_word_iff (x : Long) (lo : Nat) (w : Word) :
    x.extractLsb' lo 16 = w ↔ x.toNat / 2 ^ lo % 2 ^ 16 = w.toNat := by
  rw [← BitVec.toNat_inj, extractLsb'_toNat_eq]

/-- Splitting the value of a chunk gives the chunk's words back (R154). -/
theorem splitLong_joinChunk (le : Bool) {ll : Bool} {c : List Word} (h : c.length = chunkSize ll) :
    splitLong le ll (joinChunk le ll c) = c := by
  have hval := toNat_joinChunk le h
  rcases chunk_cases h with ⟨rfl, w₀, w₁, rfl⟩ | ⟨rfl, w₀, w₁, w₂, w₃, rfl⟩
  · rw [weightedSum_long] at hval
    rw [splitLong_long]
    cases le <;> simp [extractLsb'_eq_word_iff] at hval ⊢ <;> omega
  · rw [weightedSum_longLong] at hval
    rw [splitLong_longLong]
    cases le <;> simp [extractLsb'_eq_word_iff] at hval ⊢ <;> omega

/-- Joining the words of a value in range gives the value back (R154). -/
theorem joinChunk_splitLong (le : Bool) {ll : Bool} {x : Long} (h : longInRange ll x = true) :
    joinChunk le ll (splitLong le ll x) = x := by
  have hx := x.isLt
  rw [longInRange_iff] at h
  rw [← BitVec.toNat_inj, toNat_joinChunk le (length_splitLong le ll x)]
  cases ll with
  | false =>
    have hlong : x.toNat < 2 ^ 32 := h rfl
    rw [splitLong_long]
    cases le <;> simp [weightedSum_long] <;> omega
  | true =>
    rw [splitLong_longLong]
    cases le <;> simp [weightedSum_longLong] <;> omega

/-! ## W2L and L2W on lists -/

/-- The whole chunks of a list have `k` words each (R152). -/
theorem length_of_mem_wholeChunks {k : Nat} {ws c : List Word} (hc : c ∈ chunks k (ws.length / k) ws) :
    c.length = k :=
  length_of_mem_chunks (Nat.div_mul_le_self _ _) hc

@[simp] theorem length_wordsToLongs (le ll : Bool) (ws : List Word) :
    (wordsToLongs le ll ws).length = ws.length / chunkSize ll := by
  simp [wordsToLongs_eq]

/-- Every value of W2L is in range (R152). -/
theorem longInRange_of_mem_wordsToLongs {le ll : Bool} {ws : List Word} {x : Long} (h : x ∈ wordsToLongs le ll ws) :
    longInRange ll x = true := by
  rw [wordsToLongs_eq] at h
  obtain ⟨c, hc, rfl⟩ := List.mem_map.1 h
  exact longInRange_joinChunk le (length_of_mem_wholeChunks hc)

/-- Value `j` of W2L is the weighted sum of the words from position `j·k` on (R152). -/
theorem toNat_of_getElem?_wordsToLongs {le ll : Bool} {ws : List Word} {j : Nat} {x : Long}
    (h : (wordsToLongs le ll ws)[j]? = some x) :
    x.toNat = ((List.range (chunkSize ll)).map fun t =>
      (ws.getD (j * chunkSize ll + t) 0).toNat * 2 ^ wordOffset le (chunkSize ll) t).sum := by
  rw [wordsToLongs_eq, List.getElem?_map] at h
  obtain ⟨c, hc, rfl⟩ := Option.map_eq_some_iff.1 h
  have hlen := length_of_mem_wholeChunks (List.mem_of_getElem? hc)
  have hj : j < ws.length / chunkSize ll := by
    simpa using (List.getElem?_eq_some_iff.1 hc).1
  obtain rfl := Option.some.inj ((getElem?_chunks hj ws).symm.trans hc)
  rw [toNat_joinChunk le hlen, weightedSum_eq_sum, hlen]
  refine congrArg List.sum (List.map_congr_left fun t ht => ?_)
  have hword : ((ws.drop (j * chunkSize ll)).take (chunkSize ll)).getD t 0 = ws.getD (j * chunkSize ll + t) 0 := by
    simp [List.getD_eq_getElem?_getD, List.mem_range.1 ht]
  rw [hword, Nat.zero_add]

/-- L2W answers the words of each value where all are in range (R153). -/
theorem longsToWordsFrom_of_inRange (le : Bool) {ll : Bool} (j : Nat) {xs : List Long}
    (h : ∀ x ∈ xs, longInRange ll x = true) : longsToWordsFrom le ll j xs = .ok (xs.flatMap (splitLong le ll)) := by
  induction xs generalizing j with
  | nil => rfl
  | cons x rest ih =>
    obtain ⟨hx, hrest⟩ := List.forall_mem_cons.1 h
    simp [longsToWordsFrom, hx, ih (j + 1) hrest]

/-- L2W names the first value out of range (R153). -/
theorem longsToWordsFrom_of_split (le : Bool) {ll : Bool} (j : Nat) {pre : List Long} {x : Long} (post : List Long)
    (hpre : ∀ y ∈ pre, longInRange ll y = true) (hx : longInRange ll x = false) :
    longsToWordsFrom le ll j (pre ++ x :: post) = .error (j + pre.length) := by
  induction pre generalizing j with
  | nil => simp [longsToWordsFrom, hx]
  | cons y ys ih =>
    obtain ⟨hy, hys⟩ := List.forall_mem_cons.1 hpre
    simp [longsToWordsFrom, hy, ih (j + 1) hys, Nat.add_right_comm j 1, Nat.add_assoc]

/-- W2L after L2W is the list (R154). -/
theorem wordsToLongs_flatMap_splitLong (le : Bool) {ll : Bool} {xs : List Long}
    (h : ∀ x ∈ xs, longInRange ll x = true) : wordsToLongs le ll (xs.flatMap (splitLong le ll)) = xs := by
  have hlen : ∀ c ∈ xs.map (splitLong le ll), c.length = chunkSize ll := by simp
  have hcount : (xs.flatMap (splitLong le ll)).length / chunkSize ll = (xs.map (splitLong le ll)).length := by
    simp [chunkSize_pos]
  rw [wordsToLongs_eq, hcount, List.flatMap_def, chunks_flatten hlen, List.map_map]
  exact (List.map_congr_left fun x hx => joinChunk_splitLong le (h x hx)).trans (List.map_id xs)

/-- L2W after W2L is the list without the partial chunk (R154). -/
theorem longsToWordsFrom_wordsToLongs (le ll : Bool) (ws : List Word) :
    longsToWordsFrom le ll 0 (wordsToLongs le ll ws) = .ok (ws.take (ws.length - ws.length % chunkSize ll)) := by
  rw [longsToWordsFrom_of_inRange le 0 fun _ hx => longInRange_of_mem_wordsToLongs hx]
  have hsplit :
      (wordsToLongs le ll ws).map (splitLong le ll) = chunks (chunkSize ll) (ws.length / chunkSize ll) ws := by
    rw [wordsToLongs_eq, List.map_map]
    exact (List.map_congr_left fun c hc => splitLong_joinChunk le (length_of_mem_wholeChunks hc)).trans (List.map_id _)
  rw [List.flatMap_def, hsplit, flatten_chunks, Nat.div_mul_self_eq_mod_sub_self]

/-- Settles O37: the chunks of the list are the words of the values, one after the other. -/
theorem wordAggregatorLaws : Obligations.WordAggregatorLaws := by
  intro le ll
  refine ⟨fun xs h => ?_, longsToWordsFrom_wordsToLongs le ll, fun ws => ?_⟩
  · have hin := forall_longInRange h
    exact ⟨_, longsToWordsFrom_of_inRange le 0 hin, wordsToLongs_flatMap_splitLong le hin⟩
  · rw [longsToWordsFrom_wordsToLongs, Except.ok.injEq, List.take_eq_self_iff]
    have hk := Nat.mod_le ws.length (chunkSize ll)
    change _ ↔ ws.length % chunkSize ll = 0
    omega

/-! ## The responses -/

/-- W2L answers OK to a word list within LMAX (R152). -/
theorem respW2l_pWords (le ll : Bool) {ws : List Word} (hfit : tooLong ws.length = false) :
    respW2l le ll (.pWords ws) = respOk (.pLongs (wordsToLongs le ll ws)) := by
  rw [respW2l, wordsArg, boundedList_of_fits hfit, respArg]

/-- A list within LMAX reaches the splitting of its values (R153). -/
theorem respL2w_pLongs (le ll : Bool) {xs : List Long} (hfit : tooLong xs.length = false) :
    respL2w le ll (.pLongs xs) = respList .pWords (longsToWordsFrom le ll 0 xs) := by
  rw [respL2w, longsArg, boundedList_of_fits hfit, respArg]

/-- Settles O35: the answer is the list of W2L, whose values are read by position. -/
theorem w2lJoinsTheChunks : Obligations.W2lJoinsTheChunks := by
  intro le ll s q ws hq harg hfit
  refine ⟨wordsToLongs le ll ws, ?_, length_wordsToLongs le ll ws, fun j x => toNat_of_getElem?_wordsToLongs,
    fun hll x hx => (longInRange_iff ll x).1 (longInRange_of_mem_wordsToLongs hx) hll⟩
  rw [exec_of_selected hq, harg, Instr.response, respW2l_pWords le ll hfit]
  rfl

/-- Settles O36: the answer is the words of each value, one after the other, or the first position out of range. -/
theorem l2wSplitsTheLongs : Obligations.L2wSplitsTheLongs := by
  intro le ll s q xs hq harg hfit
  rw [exec_of_selected hq, harg, Instr.response, respL2w_pLongs le ll hfit]
  constructor
  · intro h
    rw [longsToWordsFrom_of_inRange le 0 (forall_longInRange h)]
    refine ⟨_, rfl, ?_, fun j t x hx ht => ⟨x.extractLsb' (wordOffset le (chunkSize ll) t) 16, ?_, ?_⟩⟩
    · simp [Nat.mul_comm, chunkSize]
    · rw [← getElem?_splitLong le ht x]
      rw [List.flatMap_def]
      refine getElem?_flatten_of_length (k := chunkSize ll) ?_ ?_ ht
      · simp
      · simp [hx]
    · exact extractLsb'_toNat_eq _ _ _
  · rintro pre x post rfl rfl hpre hx
    have hout : longInRange false x = false := by
      rw [Bool.eq_false_iff, Ne, longInRange_iff]
      exact fun h => Nat.not_lt.2 hx (h rfl)
    rw [longsToWordsFrom_of_split le 0 post (forall_longInRange fun _ => hpre) hout, Nat.zero_add]
    rfl

end Sys2Proof.Machine
end

section
/-! PROOFS. The IEEE-754 Codec: the fields and the value of a pattern, and widening (43_ieee754.md R180 to R187). -/

namespace Sys2Proof.Machine

/-! ## The fields of a pattern -/

@[simp] theorem sign64_pack64 (s : Bool) (e f : Nat) : sign64 (pack64 s e f) = s := by
  simp only [sign64, pack64, BitVec.getLsbD_append]
  simp

/-- The number a binary32 pattern spells, from its fields (R180). -/
theorem pack32_toNat (s : Bool) (e f : Nat) :
    (pack32 s e f).toNat = s.toNat * 2 ^ 31 + e % 2 ^ 8 * 2 ^ 23 + f % 2 ^ 23 := by
  have he := Nat.mod_lt e (Nat.two_pow_pos 8)
  have hf := Nat.mod_lt f (Nat.two_pow_pos 23)
  simp only [pack32, BitVec.toNat_append, BitVec.toNat_ofBool, BitVec.toNat_ofNat]
  rw [← Nat.shiftLeft_add_eq_or_of_lt hf, ← Nat.shiftLeft_add_eq_or_of_lt he]
  simp only [Nat.shiftLeft_eq]
  omega

@[simp] theorem sign32_pack32 (s : Bool) (e f : Nat) : sign32 (pack32 s e f) = s := by
  simp only [sign32, pack32, BitVec.getLsbD_append]
  simp

@[simp] theorem exponent32_pack32 (s : Bool) (e f : Nat) : exponent32 (pack32 s e f) = e % 2 ^ 8 := by
  have hs := Bool.toNat_lt s
  rw [exponent32, extractLsb'_toNat_eq, pack32_toNat]
  omega

@[simp] theorem fraction32_pack32 (s : Bool) (e f : Nat) : fraction32 (pack32 s e f) = f % 2 ^ 23 := by
  rw [fraction32, extractLsb'_toNat_eq, pack32_toNat]
  omega

theorem exponent32_lt (q : BitVec 32) : exponent32 q < 2 ^ 8 := (q.extractLsb' 23 8).isLt

theorem fraction32_lt (q : BitVec 32) : fraction32 q < 2 ^ 23 := (q.extractLsb' 0 23).isLt

theorem fraction64_lt (p : BitVec 64) : fraction64 p < 2 ^ 52 := (p.extractLsb' 0 52).isLt

/-- A binary32 pattern is packed from its own fields. -/
theorem pack32_fields (q : BitVec 32) : pack32 (sign32 q) (exponent32 q) (fraction32 q) = q := by
  have hq := q.isLt
  have hs : (sign32 q).toNat = q.toNat / 2 ^ 31 % 2 := Nat.toNat_testBit _ _
  apply BitVec.eq_of_toNat_eq
  rw [pack32_toNat, hs, exponent32, fraction32, extractLsb'_toNat_eq, extractLsb'_toNat_eq]
  omega

/-! ## Products with a power of two -/

theorem two_pow_mul_two_pow {a b c : Nat} (h : a + b = c) : 2 ^ a * 2 ^ b = 2 ^ c := by
  rw [← pow_add, h]

theorem mul_two_pow_lt {m b i c : Nat} (hm : m < 2 ^ b) (hc : b + i ≤ c) : m * 2 ^ i < 2 ^ c := calc
  m * 2 ^ i < 2 ^ b * 2 ^ i := Nat.mul_lt_mul_of_pos_right hm (Nat.two_pow_pos i)
  _ = 2 ^ (b + i) := (pow_add 2 b i).symm
  _ ≤ 2 ^ c := Nat.pow_le_pow_right two_pos hc

theorem le_mul_two_pow {m b i c : Nat} (hm : 2 ^ b ≤ m) (hc : c ≤ b + i) : 2 ^ c ≤ m * 2 ^ i := calc
  2 ^ c ≤ 2 ^ (b + i) := Nat.pow_le_pow_right two_pos hc
  _ = 2 ^ b * 2 ^ i := pow_add 2 b i
  _ ≤ m * 2 ^ i := Nat.mul_le_mul_right _ hm

/-! ## The magnitude that an exponent and a fraction of `m` bits spell -/

/-- The magnitude of a finite pattern with an `m`-bit fraction, in units of its smallest subnormal (R182, R183). -/
def magnitude (m e f : Nat) : Nat := if e = 0 then f else (2 ^ m + f) * 2 ^ (e - 1)

theorem magnitude_zero (m f : Nat) : magnitude m 0 f = f := if_pos rfl

theorem magnitude_succ (m e f : Nat) : magnitude m (e + 1) f = (2 ^ m + f) * 2 ^ e := if_neg (Nat.succ_ne_zero e)

/-- A magnitude lies below the next binade. -/
theorem magnitude_lt {m f : Nat} (hf : f < 2 ^ m) (e : Nat) : magnitude m e f < 2 ^ (m + e) := by
  cases e with
  | zero => rwa [magnitude_zero]
  | succ e =>
    have hsig : 2 ^ m + f < 2 ^ (m + 1) := by
      rw [pow_succ]
      omega
    rw [magnitude_succ]
    exact mul_two_pow_lt hsig (by omega)

/-- A magnitude with a greater exponent is greater. -/
theorem magnitude_lt_of_exponent_lt {m e e' f : Nat} (hf : f < 2 ^ m) (h : e < e') (f' : Nat) :
    magnitude m e f < magnitude m e' f' := by
  obtain ⟨d, rfl⟩ := Nat.exists_eq_add_of_lt h
  calc magnitude m e f < 2 ^ (m + e) := magnitude_lt hf e
    _ ≤ (2 ^ m + f') * 2 ^ (e + d) := le_mul_two_pow (Nat.le_add_right _ _) (by omega)
    _ = magnitude m (e + d + 1) f' := (magnitude_succ m (e + d) f').symm

/-- The magnitude determines exponent and fraction. -/
theorem magnitude_inj {m e e' f f' : Nat} (hf : f < 2 ^ m) (hf' : f' < 2 ^ m)
    (h : magnitude m e f = magnitude m e' f') : e = e' ∧ f = f' := by
  rcases Nat.lt_trichotomy e e' with hlt | rfl | hgt
  · exact absurd h (magnitude_lt_of_exponent_lt hf hlt f').ne
  · refine ⟨rfl, ?_⟩
    cases e with
    | zero => rwa [magnitude_zero, magnitude_zero] at h
    | succ e =>
      rw [magnitude_succ, magnitude_succ] at h
      exact Nat.add_left_cancel (Nat.eq_of_mul_eq_mul_right (Nat.two_pow_pos e) h)
  · exact absurd h (magnitude_lt_of_exponent_lt hf' hgt f).ne'

/-! ## The value of a pattern, from its fields -/

/-- The value of a pattern with fields `s`, `e`, `f`, in a format of `m` fraction bits, largest exponent `top` and a
smallest subnormal of `2 ^ k` units: R182 at 23, 0xFF and 925, R183 at 52, 0x7FF and 0. -/
def fieldsValue (m top k : Nat) (s : Bool) (e f : Nat) : FloatValue :=
  if e = top then if f ≠ 0 then .nan else .infinity s else .finite s (magnitude m e f * 2 ^ k)

theorem fieldsValue_top (m top k : Nat) (s : Bool) : fieldsValue m top k s top 0 = .infinity s := by
  simp [fieldsValue]

theorem fieldsValue_of_ne {top e : Nat} (h : e ≠ top) (m k : Nat) (s : Bool) (f : Nat) :
    fieldsValue m top k s e f = .finite s (magnitude m e f * 2 ^ k) := if_neg h

theorem fieldsValue_eq_nan_iff (m top k : Nat) (s : Bool) (e f : Nat) :
    fieldsValue m top k s e f = .nan ↔ e = top ∧ f ≠ 0 := by
  unfold fieldsValue
  split <;> simp [*]

/-- A value that is no NaN determines the fields. -/
theorem fieldsValue_inj {m top k e e' f f' : Nat} {s s' : Bool} (hf : f < 2 ^ m) (hf' : f' < 2 ^ m)
    (hn : fieldsValue m top k s e f ≠ .nan) (h : fieldsValue m top k s e f = fieldsValue m top k s' e' f') :
    s = s' ∧ e = e' ∧ f = f' := by
  have hn' := h ▸ hn
  rw [Ne, fieldsValue_eq_nan_iff, not_and, not_not] at hn hn'
  by_cases he : e = top <;> by_cases he' : e' = top
  · obtain rfl := hn he
    obtain rfl := hn' he'
    rw [he, he', fieldsValue_top, fieldsValue_top, FloatValue.infinity.injEq] at h
    exact ⟨h, he.trans he'.symm, rfl⟩
  · rw [he, hn he, fieldsValue_top, fieldsValue_of_ne he'] at h
    cases h
  · rw [he', hn' he', fieldsValue_top, fieldsValue_of_ne he] at h
    cases h
  · rw [fieldsValue_of_ne he, fieldsValue_of_ne he', FloatValue.finite.injEq] at h
    exact ⟨h.1, magnitude_inj hf hf' (Nat.eq_of_mul_eq_mul_right (Nat.two_pow_pos k) h.2)⟩

/-- A normal binary32 magnitude in units of 2^-1074, 2^925 to the smallest subnormal (R182). -/
theorem magnitude_mul_of_ne_zero {e : Nat} (he : e ≠ 0) (f : Nat) :
    magnitude 23 e f * 2 ^ 925 = (2 ^ 23 + f) * 2 ^ (e + 924) := by
  obtain ⟨k, rfl⟩ := Nat.exists_eq_add_one_of_ne_zero he
  rw [magnitude_succ, Nat.mul_assoc, ← pow_add, Nat.add_assoc]

/-- The magnitude of a binary32 pattern, in units of 2^-1074 (R182). -/
theorem units32_eq_magnitude (q : BitVec 32) :
    units32 q = magnitude 23 (exponent32 q) (fraction32 q) * 2 ^ 925 := by
  unfold units32
  split
  next he => rw [he, magnitude_zero]
  next he => rw [magnitude_mul_of_ne_zero he]

theorem value32_eq_fieldsValue (q : BitVec 32) :
    value32 q = fieldsValue 23 0xFF 925 (sign32 q) (exponent32 q) (fraction32 q) := by
  rw [value32, units32_eq_magnitude, fieldsValue]

theorem value64_eq_fieldsValue (p : BitVec 64) :
    value64 p = fieldsValue 52 0x7FF 0 (sign64 p) (exponent64 p) (fraction64 p) := by
  rw [fieldsValue, pow_zero, Nat.mul_one]
  rfl

theorem value32_pack32_infinity (s : Bool) : value32 (pack32 s 0xFF 0) = .infinity s := by
  simp [value32_eq_fieldsValue, fieldsValue_top]

theorem value64_pack64_infinity (s : Bool) : value64 (pack64 s 0x7FF 0) = .infinity s := by
  simp [value64_eq_fieldsValue, fieldsValue_top]

/-- The value of a finite binary32 pattern packed from its fields (R182). -/
theorem value32_pack32_finite (s : Bool) {e f : Nat} (he : e < 0xFF) (hf : f < 2 ^ 23) :
    value32 (pack32 s e f) = .finite s (magnitude 23 e f * 2 ^ 925) := by
  have he8 : e % 2 ^ 8 = e := Nat.mod_eq_of_lt (by omega)
  rw [value32_eq_fieldsValue, sign32_pack32, exponent32_pack32, fraction32_pack32, he8, Nat.mod_eq_of_lt hf,
    fieldsValue_of_ne he.ne]

/-- The value of a finite binary64 datum packed from its fields (R183). -/
theorem value64_pack64_finite (s : Bool) {e f : Nat} (he : e < 0x7FF) (hf : f < 2 ^ 52) :
    value64 (pack64 s e f) = .finite s (magnitude 52 e f) := by
  have he11 : e % 2 ^ 11 = e := Nat.mod_eq_of_lt (by omega)
  rw [value64_eq_fieldsValue, sign64_pack64, exponent64_pack64, fraction64_pack64, he11, Nat.mod_eq_of_lt hf,
    fieldsValue_of_ne he.ne, pow_zero, Nat.mul_one]

theorem value32_eq_finite_iff {q : BitVec 32} {s : Bool} {r : Nat} :
    value32 q = .finite s r ↔ exponent32 q ≠ 0xFF ∧ sign32 q = s ∧ units32 q = r := by
  rw [value32]
  split
  next htop => simp [htop, apply_ite (· = FloatValue.finite s r)]
  next hfin => simp [hfin]

/-- The NaN test at single precision is the NaN case of the value (R182, R185). -/
theorem isNaN32_iff_value32 (q : BitVec 32) : isNaN32 q = true ↔ value32 q = .nan := by
  rw [value32_eq_fieldsValue, fieldsValue_eq_nan_iff]
  simp [isNaN32]

/-- The NaN test at double precision is the NaN case of the value (R183, R185). -/
theorem isNaN64_iff_value64 (p : BitVec 64) : isNaN64 p = true ↔ value64 p = .nan := by
  rw [value64_eq_fieldsValue, fieldsValue_eq_nan_iff, isNaN64_iff]

theorem isNaN32_eq_false_iff (q : BitVec 32) : isNaN32 q = false ↔ value32 q ≠ .nan := by
  rw [Bool.eq_false_iff, Ne, isNaN32_iff_value32]

theorem isNaN64_eq_false_iff (p : BitVec 64) : isNaN64 p = false ↔ value64 p ≠ .nan := by
  rw [Bool.eq_false_iff, Ne, isNaN64_iff_value64]

/-- Settles O38. -/
theorem naNsAreTheNaNPatterns : Obligations.NaNsAreTheNaNPatterns :=
  ⟨isNaN32_iff_value32, isNaN64_iff_value64, isNaN64_iff_exists_nanBits⟩

/-- A pattern that is no NaN is determined by its value (R182). -/
theorem value32_inj {q q' : BitVec 32} (hq : isNaN32 q = false) (h : value32 q = value32 q') : q = q' := by
  rw [isNaN32_eq_false_iff] at hq
  rw [value32_eq_fieldsValue] at hq h
  obtain ⟨hs, he, hf⟩ := fieldsValue_inj (fraction32_lt q) (fraction32_lt q') hq (h.trans (value32_eq_fieldsValue q'))
  rw [← pack32_fields q, hs, he, hf, pack32_fields]

/-- A datum that is no NaN is determined by its value (R183). -/
theorem value64_inj {p p' : BitVec 64} (hp : isNaN64 p = false) (h : value64 p = value64 p') : p = p' := by
  rw [isNaN64_eq_false_iff] at hp
  rw [value64_eq_fieldsValue] at hp h
  obtain ⟨hs, he, hf⟩ := fieldsValue_inj (fraction64_lt p) (fraction64_lt p') hp (h.trans (value64_eq_fieldsValue p'))
  rw [← pack64_fields p, hs, he, hf, pack64_fields]

/-! ## Widening -/

section Normalise

variable {f : Nat} (hf : Nat.log2 f ≤ 52)
include hf

/-- A subnormal fraction without its highest bit, shifted up, fits the fraction field of binary64 (R187). -/
theorem normalised_fraction_lt : (f - 2 ^ Nat.log2 f) * 2 ^ (52 - Nat.log2 f) < 2 ^ 52 := by
  have hlt : f < 2 ^ Nat.log2 f * 2 := Nat.lt_log2_self
  exact mul_two_pow_lt (b := Nat.log2 f) (by omega) (by omega)

/-- A subnormal fraction, normalised, is the same magnitude in the units of binary64 (R187). -/
theorem magnitude_normalised (h0 : f ≠ 0) :
    magnitude 52 (Nat.log2 f + 874) ((f - 2 ^ Nat.log2 f) * 2 ^ (52 - Nat.log2 f)) = f * 2 ^ 925 := by
  have hexp : 52 - Nat.log2 f + (Nat.log2 f + 873) = 925 := by omega
  rw [magnitude_succ, ← pow_mul_pow_sub 2 hf, ← Nat.add_mul, Nat.add_sub_cancel' (Nat.log2_self_le h0),
    Nat.mul_assoc, ← pow_add, hexp]

end Normalise

/-- A normal pattern with its exponent rebiased is the same magnitude in the units of binary64 (R187). -/
theorem magnitude_rebiased {e : Nat} (he : e ≠ 0) (f : Nat) :
    magnitude 52 (e + 896) (f * 2 ^ 29) = magnitude 23 e f * 2 ^ 925 := by
  rw [magnitude_mul_of_ne_zero he, magnitude_succ, pow_add 2 23 29, ← Nat.add_mul, Nat.mul_assoc, ← pow_add,
    Nat.add_left_comm]

/-- Settles O39, by the branches of `widen32`. -/
theorem wideningIsExact : Obligations.WideningIsExact := by
  intro q hq
  have he := exponent32_lt q
  have hf := fraction32_lt q
  rw [isNaN32_eq_false_iff, value32_eq_fieldsValue, Ne, fieldsValue_eq_nan_iff, not_and, not_not] at hq
  rw [value32_eq_fieldsValue]
  unfold widen32
  dsimp only
  split
  next htop => rw [value64_pack64_infinity, htop, hq htop, fieldsValue_top]
  next hfin =>
    rw [fieldsValue_of_ne hfin]
    split
    next hzero =>
      rw [value64_pack64_finite _ (by decide) (by decide), hzero.1, hzero.2, magnitude_zero, magnitude_zero,
        Nat.zero_mul]
    next hzero =>
      split
      next he0 =>
        have hf0 : fraction32 q ≠ 0 := fun hf0 => hzero ⟨he0, hf0⟩
        have hlog : Nat.log2 (fraction32 q) < 23 := (Nat.log2_lt hf0).2 hf
        rw [value64_pack64_finite _ (by omega) (normalised_fraction_lt (by omega)),
          magnitude_normalised (by omega) hf0, he0, magnitude_zero]
      next he0 => rw [value64_pack64_finite _ (by omega) (by omega), magnitude_rebiased he0]

end Sys2Proof.Machine
end

section
/-! PROOFS. The IEEE-754 Codec: rounding to nearest with ties to even, and narrowing (43_ieee754.md R188). -/

namespace Sys2Proof.Machine

/-! ## Rounding to the nearest multiple -/

/-- Multiples of `u` lie at least `u` apart. -/
theorem mul_add_le_mul_of_lt {j n : Nat} (h : j < n) (u : Nat) : j * u + u ≤ n * u := by
  rw [← Nat.add_one_mul]
  exact Nat.mul_le_mul_right u h

/-- `n · u` is as near to `a` as any multiple of `u`, and `n` is even at a tie (R188). -/
structure RoundsTo (u a n : Nat) : Prop where
  above : 2 * (n * u) ≤ 2 * a + u
  below : 2 * a ≤ 2 * (n * u) + u
  even : 2 * (n * u) = 2 * a + u ∨ 2 * a = 2 * (n * u) + u → n % 2 = 0

theorem roundsTo_roundHalfEven {u : Nat} (hu : 0 < u) (a : Nat) : RoundsTo u a (roundHalfEven a u) := by
  have hdiv := Nat.div_add_mod' a u
  have hmod := Nat.mod_lt a hu
  have hsucc := Nat.add_one_mul (a / u) u
  unfold roundHalfEven
  dsimp only
  split
  next => constructor <;> omega
  next =>
    split
    next => constructor <;> omega
    next => split <;> constructor <;> omega

namespace RoundsTo

variable {u a n : Nat} (h : RoundsTo u a n)
include h

/-- No multiple is nearer, and where another is as near the one chosen is even. -/
theorem nearest (j : Nat) : Nat.dist (n * u) a ≤ Nat.dist (j * u) a ∧
    (Nat.dist (n * u) a = Nat.dist (j * u) a → j * u ≠ n * u → n % 2 = 0) := by
  obtain ⟨habove, hbelow, heven⟩ := h
  unfold Nat.dist
  rcases Nat.lt_trichotomy j n with hlt | rfl | hgt
  · have := mul_add_le_mul_of_lt hlt u
    omega
  · omega
  · have := mul_add_le_mul_of_lt hgt u
    omega

/-- Rounding does not go below a multiple. -/
theorem le_of_mul_le (hu : 0 < u) {j : Nat} (hj : j * u ≤ a) : j ≤ n := by
  by_contra! hlt
  have hstep := mul_add_le_mul_of_lt hlt u
  have := h.below
  omega

/-- Rounding does not go above a multiple. -/
theorem le_of_le_mul (hu : 0 < u) {j : Nat} (hj : a ≤ j * u) : n ≤ j := by
  by_contra! hlt
  have hstep := mul_add_le_mul_of_lt hlt u
  have := h.above
  omega

/-- From half way below an even multiple on, rounding reaches it. -/
theorem even_le (hu : 0 < u) {j : Nat} (hj : j % 2 = 0) (ha : 2 * (j * u) ≤ 2 * a + u) : j ≤ n := by
  obtain ⟨-, hbelow, heven⟩ := h
  by_contra! hlt
  have hstep := mul_add_le_mul_of_lt hlt u
  have hn : n % 2 = 0 := heven (.inr (by omega))
  have hstep' := mul_add_le_mul_of_lt (show n + 1 < j by omega) u
  rw [Nat.add_one_mul] at hstep'
  omega

/-- Up to half way above an even multiple, rounding does not pass it. -/
theorem le_even (hu : 0 < u) {j : Nat} (hj : j % 2 = 0) (ha : 2 * a ≤ 2 * (j * u) + u) : n ≤ j := by
  obtain ⟨habove, -, heven⟩ := h
  by_contra! hlt
  have hstep := mul_add_le_mul_of_lt hlt u
  have hn : n % 2 = 0 := heven (.inl (by omega))
  have hstep' := mul_add_le_mul_of_lt (show j + 1 < n by omega) u
  rw [Nat.add_one_mul] at hstep'
  omega

end RoundsTo

/-! ## Rounding to the binary32 spacing -/

/-- `a` units rounded to `n` times the binary32 spacing `2 ^ k` at `a` (R188). -/
structure RoundsAt (k a n : Nat) : Prop where
  roundsTo : RoundsTo (2 ^ k) a n
  ge : 925 ≤ k
  lt : a < 2 ^ 24 * 2 ^ k
  normal : k = 925 ∨ 2 ^ 23 * 2 ^ k ≤ a

theorem exists_rounded32_eq (a : Nat) : ∃ k n, rounded32 a = n * 2 ^ k ∧ RoundsAt k a n := by
  refine ⟨max (Nat.log2 a) 948 - 23, roundHalfEven a (spacing32 a), rfl,
    roundsTo_roundHalfEven (Nat.two_pow_pos _) a, by omega,
    Nat.lt_log2_self.trans_le (le_mul_two_pow le_rfl (by omega)), ?_⟩
  by_cases hlog : Nat.log2 a ≤ 948
  · exact .inl (by omega)
  · have ha : a ≠ 0 := by
      rintro rfl
      exact hlog (by decide)
    have hexp : 23 + (max (Nat.log2 a) 948 - 23) = Nat.log2 a := by omega
    rw [← pow_add, hexp]
    exact .inr (Nat.log2_self_le ha)

namespace RoundsAt

variable {k a n : Nat} (h : RoundsAt k a n)
include h

theorem le_two_pow : n ≤ 2 ^ 24 := h.roundsTo.le_of_le_mul (Nat.two_pow_pos k) h.lt.le

theorem two_pow_le : k = 925 ∨ 2 ^ 23 ≤ n := h.normal.imp_right (h.roundsTo.le_of_mul_le (Nat.two_pow_pos k))

theorem eq_of_subnormal (ha : a < 2 ^ 948) : k = 925 :=
  h.normal.resolve_right (ha.trans_le (le_mul_two_pow le_rfl (Nat.add_le_add_left h.ge 23))).not_ge

/-- No binary32 magnitude is nearer, and where another is as near the one chosen is even: the magnitudes are either
multiples of the spacing or below the binade of `a`. -/
theorem nearest {m i : Nat} (hm : m < 2 ^ 24) (hi : 925 ≤ i) :
    Nat.dist (n * 2 ^ k) a ≤ Nat.dist (m * 2 ^ i) a ∧
    (Nat.dist (n * 2 ^ k) a = Nat.dist (m * 2 ^ i) a → m * 2 ^ i ≠ n * 2 ^ k → n % 2 = 0) := by
  by_cases hki : k ≤ i
  · have hmul : m * 2 ^ i = m * 2 ^ (i - k) * 2 ^ k := by rw [Nat.mul_assoc, ← pow_add, Nat.sub_add_cancel hki]
    rw [hmul]
    exact h.roundsTo.nearest _
  · have hbinade : 2 ^ 23 * 2 ^ k ≤ a := h.normal.resolve_left (by omega)
    have hbelow : m * 2 ^ i < 2 ^ 23 * 2 ^ k :=
      (mul_two_pow_lt hm le_rfl).trans_le (le_mul_two_pow le_rfl (by omega))
    have hedge := (h.roundsTo.nearest (2 ^ 23)).1
    unfold Nat.dist at hedge ⊢
    omega

/-- A magnitude below 2^128 - 2^103 does not round up to 2^128. -/
theorem lt_overflow (ha : a < 2 ^ 1202 - 2 ^ 1177) : n * 2 ^ k < 2 ^ 1202 := by
  have hk : k ≤ 1178 := by
    by_contra! hlt
    have hbinade : 2 ^ 23 * 2 ^ k ≤ a := h.normal.resolve_left (by omega)
    have hle : 2 ^ 1202 ≤ 2 ^ 23 * 2 ^ k := le_mul_two_pow le_rfl (by omega)
    exact ha.not_ge ((Nat.sub_le _ _).trans (hle.trans hbinade))
  have hu : 2 ^ k ≤ 2 ^ 1 * 2 ^ 1177 := le_mul_two_pow le_rfl hk
  have := h.roundsTo.above
  omega

/-- A magnitude from 2^128 - 2^103 on rounds to 2^128 or more. -/
theorem overflow_le (ha : 2 ^ 1202 - 2 ^ 1177 ≤ a) : 2 ^ 1202 ≤ n * 2 ^ k := by
  have hlarge : 2 ^ 25 * 2 ^ 1177 = 2 ^ 1202 := two_pow_mul_two_pow (by decide)
  have hk : 1178 ≤ k := by
    by_contra! hlt
    have hle : 2 ^ k ≤ 2 ^ 0 * 2 ^ 1177 := le_mul_two_pow le_rfl (by omega)
    have := h.lt
    omega
  rcases hk.eq_or_lt with rfl | hlt
  · have hu : 2 ^ 1 * 2 ^ 1177 = 2 ^ 1178 := two_pow_mul_two_pow (by decide)
    have hn : 2 ^ 24 ≤ n := h.roundsTo.even_le (pow_pos two_pos _) (by decide) (by omega)
    exact le_mul_two_pow hn (by decide)
  · have hn : 2 ^ 23 ≤ n := h.two_pow_le.resolve_left (by omega)
    exact le_mul_two_pow hn (by omega)

end RoundsAt

/-! ## The pattern of a rounded magnitude -/

theorem encode32_of_overflow (s : Bool) {r : Nat} (h : 2 ^ 1202 ≤ r) : encode32 s r = pack32 s 0xFF 0 := if_pos h

theorem encode32_zero (s : Bool) : encode32 s 0 = pack32 s 0 0 := by
  rw [encode32, if_neg (Nat.not_le.2 (pow_pos two_pos _)), if_pos rfl]

theorem encode32_subnormal (s : Bool) {n : Nat} (hn : n < 2 ^ 23) : encode32 s (n * 2 ^ 925) = pack32 s 0 n := by
  have hsub : n * 2 ^ 925 < 2 ^ 948 := mul_two_pow_lt hn le_rfl
  have hfin : n * 2 ^ 925 < 2 ^ 1202 := mul_two_pow_lt hn (by decide)
  by_cases h0 : n = 0
  · rw [h0, Nat.zero_mul, encode32_zero]
  · rw [encode32, if_neg hfin.not_ge, if_neg (Nat.mul_ne_zero h0 (pow_ne_zero _ two_ne_zero)), if_pos hsub,
      Nat.mul_div_cancel _ (Nat.two_pow_pos _)]

theorem encode32_normal (s : Bool) {n k : Nat} (hlo : 2 ^ 23 ≤ n) (hhi : n < 2 ^ 24) (hk : 925 ≤ k)
    (hk' : k ≤ 1178) : encode32 s (n * 2 ^ k) = pack32 s (k + 23 - 947) (n - 2 ^ 23) := by
  have h0 : n * 2 ^ k ≠ 0 := Nat.mul_ne_zero (by omega) (Nat.two_pow_pos k).ne'
  have hlog : Nat.log2 (n * 2 ^ k) = k + 23 :=
    (Nat.log2_eq_iff h0).2 ⟨le_mul_two_pow hlo (by omega), mul_two_pow_lt hhi (by omega)⟩
  have hfin : n * 2 ^ k < 2 ^ 1202 := mul_two_pow_lt hhi (by omega)
  have hnormal : 2 ^ 948 ≤ n * 2 ^ k := le_mul_two_pow hlo (by omega)
  rw [encode32, if_neg hfin.not_ge, if_neg h0, if_neg hnormal.not_gt, hlog, Nat.add_sub_cancel,
    Nat.mul_div_cancel _ (Nat.two_pow_pos k)]

/-- A rounded magnitude below 2^128 has a finite pattern, whose fraction is even where the rounded integer is. -/
theorem exists_encode32_eq_pack32 (s : Bool) {n k : Nat} (hn : n ≤ 2 ^ 24) (hk : 925 ≤ k)
    (hnormal : k = 925 ∨ 2 ^ 23 ≤ n) (hlt : n * 2 ^ k < 2 ^ 1202) :
    ∃ e f, encode32 s (n * 2 ^ k) = pack32 s e f ∧ e < 0xFF ∧ f < 2 ^ 23 ∧ f % 2 = n % 2 ∧
      magnitude 23 e f * 2 ^ 925 = n * 2 ^ k := by
  have hbound : ∀ b, 2 ^ b ≤ n → b + k < 1202 := fun b hb =>
    (pow_lt_pow_iff_right₀ one_lt_two).1 ((le_mul_two_pow hb le_rfl).trans_lt hlt)
  rcases Nat.lt_or_ge n (2 ^ 23) with hsub | hlo
  · obtain rfl := hnormal.resolve_right hsub.not_ge
    exact ⟨0, n, encode32_subnormal s hsub, by decide, hsub, rfl, by rw [magnitude_zero]⟩
  rcases hn.lt_or_eq with hhi | rfl
  · have hk' := hbound 23 hlo
    refine ⟨k + 23 - 947, n - 2 ^ 23, encode32_normal s hlo hhi hk (by omega), by omega, by omega, by omega, ?_⟩
    have hexp : k + 23 - 947 + 924 = k := by omega
    rw [magnitude_mul_of_ne_zero (by omega), Nat.add_sub_cancel' hlo, hexp]
  · have hk' := hbound 24 le_rfl
    have hexp : k + 1 + 23 - 947 + 924 = k + 1 := by omega
    have hmove : 2 ^ 24 * 2 ^ k = 2 ^ 23 * 2 ^ (k + 1) := by
      rw [two_pow_mul_two_pow rfl, two_pow_mul_two_pow (show 23 + (k + 1) = 24 + k by omega)]
    refine ⟨k + 1 + 23 - 947, 0, ?_, by omega, by decide, by decide, ?_⟩
    · rw [hmove, encode32_normal s le_rfl (by decide) (by omega) (by omega), Nat.sub_self]
    · rw [hmove, magnitude_mul_of_ne_zero (by omega), hexp, Nat.add_zero]

/-! ## Narrowing -/

/-- The magnitude of a finite binary32 pattern as an integer below 2^24 times a power of two (R182). -/
theorem exists_units32_eq {q : BitVec 32} (hq : exponent32 q ≠ 0xFF) :
    ∃ m i, units32 q = m * 2 ^ i ∧ m < 2 ^ 24 ∧ 925 ≤ i ∧ i ≤ 1178 := by
  have he := exponent32_lt q
  have hf := fraction32_lt q
  unfold units32
  split
  · exact ⟨_, 925, rfl, by omega, by omega, by omega⟩
  · exact ⟨_, _, rfl, by omega, by omega, by omega⟩

/-- No finite binary32 magnitude reaches 2^128 - 2^103 (R182). -/
theorem units32_lt {q : BitVec 32} (hq : exponent32 q ≠ 0xFF) : units32 q < 2 ^ 1202 - 2 ^ 1177 := by
  obtain ⟨m, i, heq, hm, -, hi⟩ := exists_units32_eq hq
  have hlarge : 2 ^ 25 * 2 ^ 1177 = 2 ^ 1202 := two_pow_mul_two_pow (by decide)
  have hpos : 0 < (2 : Nat) ^ 1177 := pow_pos two_pos _
  have hu : 2 ^ i ≤ 2 ^ 1 * 2 ^ 1177 := le_mul_two_pow le_rfl hi
  have hle : m * 2 ^ i ≤ (2 ^ 24 - 1) * (2 ^ 1 * 2 ^ 1177) := Nat.mul_le_mul (Nat.le_sub_one_of_lt hm) hu
  omega

/-- Narrowing of a finite datum, zero included (R188). -/
theorem narrow64_of_finite {f : F64} (h : exponent64 f ≠ 0x7FF) :
    narrow64 f = encode32 (sign64 f) (rounded32 (units64 f)) := by
  rw [narrow64, if_neg h]
  split
  next h0 =>
    have hround : rounded32 0 = 0 := by simp [rounded32, roundHalfEven]
    rw [h0, hround, encode32_zero]
  next => rfl

/-- Settles O40. -/
theorem narrowingIsToNearestEven : Obligations.NarrowingIsToNearestEven := by
  intro f _
  obtain ⟨k, n, hr, h⟩ := exists_rounded32_eq (units64 f)
  refine ⟨fun hinf => ?_, fun hfin hbig => ?_, fun hfin hsmall => ?_⟩
  · rw [narrow64, if_pos hinf, value32_pack32_infinity]
  · rw [narrow64_of_finite hfin, hr, encode32_of_overflow _ (h.overflow_le hbig), value32_pack32_infinity]
  · obtain ⟨e, g, henc, he, hg, heven, hmag⟩ :=
      exists_encode32_eq_pack32 (sign64 f) h.le_two_pow h.ge h.two_pow_le (h.lt_overflow hsmall)
    rw [narrow64_of_finite hfin, hr, henc, value32_pack32_finite _ he hg, hmag, fraction32_pack32, Nat.mod_eq_of_lt hg,
      heven]
    refine ⟨_, rfl, fun q hq => ?_⟩
    obtain ⟨m, i, heq, hm, hi, -⟩ := exists_units32_eq hq
    rw [heq]
    exact h.nearest hm hi

/-- Below 2^-126 the rounding of R188 is to a multiple of the smallest subnormal. -/
theorem exists_narrow64_eq_of_subnormal {f : F64} (hfin : exponent64 f ≠ 0x7FF) (ha : units64 f < 2 ^ 948) :
    ∃ n, narrow64 f = encode32 (sign64 f) (n * 2 ^ 925) ∧ RoundsTo (2 ^ 925) (units64 f) n := by
  obtain ⟨k, n, hr, h⟩ := exists_rounded32_eq (units64 f)
  obtain rfl := h.eq_of_subnormal ha
  exact ⟨n, by rw [narrow64_of_finite hfin, hr], h.roundsTo⟩

/-- Settles O41: up to half the smallest subnormal rounds to zero times it, from there on to once. -/
theorem narrowingUnderflow : Obligations.NarrowingUnderflow := by
  intro f hfin
  have hhalf : 2 ^ 1 * 2 ^ 924 = 2 ^ 925 := two_pow_mul_two_pow (by decide)
  have hsub : 2 ^ 0 * 2 ^ 925 < 2 ^ 948 := mul_two_pow_lt (b := 1) (by decide) (by decide)
  have hpos : 0 < (2 : Nat) ^ 925 := pow_pos two_pos _
  constructor
  · intro ha
    obtain ⟨n, hn, h⟩ := exists_narrow64_eq_of_subnormal hfin (by omega)
    obtain rfl : n = 0 := Nat.le_zero.1 (h.le_even hpos rfl (by omega))
    rw [hn, encode32_subnormal _ (by decide)]
  · intro hlo hhi
    obtain ⟨n, hn, h⟩ := exists_narrow64_eq_of_subnormal hfin (by omega)
    have hle : n ≤ 1 := h.le_of_le_mul hpos (by omega)
    have hne : n ≠ 0 := by
      rintro rfl
      have := h.below
      omega
    obtain rfl : n = 1 := by omega
    rw [hn, encode32_subnormal _ (by decide)]

end Sys2Proof.Machine
end

section
/-! PROOFS. The IEEE-754 Codec: FDEC and FENC, and their round trips (43_ieee754.md R189 to R191). -/

namespace Sys2Proof.Machine

/-! ## The responses -/

theorem decodeFloat_double (nan : NaN64) (p : BitVec 64) :
    decodeFloat true nan p = some (if isNaN64 p then nanBits nan else p) := by
  rw [decodeFloat, if_pos rfl, apply_ite some]

theorem decodeFloat_single (nan : NaN64) (q : BitVec 32) :
    decodeFloat false nan (q.setWidth 64) = some (if isNaN32 q then nanBits nan else widen32 q) := by
  have hlow : (q.setWidth 64).setWidth 32 = q := by simp
  have hhigh : (q.setWidth 64).extractLsb' 32 32 = 0 := (high_half_eq_zero_iff _).2 (by rw [hlow])
  simp [decodeFloat, hlow, hhigh, apply_ite some]

theorem decodeFloat_single_of_ge (nan : NaN64) {p : BitVec 64} (h : 2 ^ 32 ≤ p.toNat) :
    decodeFloat false nan p = none := by
  have hhigh : p.extractLsb' 32 32 ≠ 0#32 := by
    intro hzero
    have hlt := (p.setWidth 32).isLt
    rw [← (high_half_eq_zero_iff p).1 hzero, BitVec.toNat_setWidth] at h
    omega
  simp [decodeFloat, hhigh]

theorem encodeFloat_double (f : F64) : encodeFloat true f = if isNaN64 f then 0x7FF8000000000000 else f := rfl

theorem encodeFloat_single (f : F64) :
    encodeFloat false f = if isNaN64 f then 0x7FC00000 else (narrow64 f).setWidth 64 := rfl

/-- FDEC with a pattern: the datum decoded, or RANGE_ERROR (R189). -/
theorem exec_fdec {s : State} {q : Req} {p : BitVec 64} (hq : s.selected = some q) (harg : q.arg = .pPat p)
    (dp : Bool) :
    exec (.fdec dp) s = .next (s.answer q (respDomain .pF64 (decodeFloat dp (Config.nanDraw s.draws) p))) := by
  rw [exec_of_selected hq, harg, Instr.response, respFdec, patArg, respArg]

/-- FENC with a datum: the pattern encoded (R190). -/
theorem exec_fenc {s : State} {q : Req} {f : F64} (hq : s.selected = some q) (harg : q.arg = .pF64 f) (dp : Bool) :
    exec (.fenc dp) s = .next (s.answer q (respOk (.pPat (encodeFloat dp f)))) := by
  rw [exec_of_selected hq, harg, Instr.response, respFenc, f64Arg, respArg]

/-- What a NaN is drawn as is a NaN (R185). -/
theorem isNaN64_nanBits (nan : NaN64) : isNaN64 (nanBits nan) = true := (isNaN64_iff_exists_nanBits _).2 ⟨nan, rfl⟩

/-- Settles O43: the datum is the widened pattern. -/
theorem fdecSingleReturnsTheValue : Obligations.FdecSingleReturnsTheValue := by
  refine ⟨fun s q p hq harg hp => ⟨widen32 p, ?_, wideningIsExact p hp⟩, fun s q p hq harg hp => ?_⟩
  · rw [exec_fdec hq harg, decodeFloat_single, hp]
    rfl
  · rw [exec_fdec hq harg, decodeFloat_single_of_ge _ hp]
    rfl

/-- Settles O42. -/
theorem fdecDoubleReturnsTheDatum : Obligations.FdecDoubleReturnsTheDatum := by
  intro s q p hq harg hp
  rw [exec_fdec hq harg, decodeFloat_double, hp]
  rfl

/-- Settles O44: the datum is the NaN drawn. -/
theorem fdecOfANaNReturnsANaN : Obligations.FdecOfANaNReturnsANaN := by
  refine ⟨fun s q p hq harg hp => ⟨nanBits (Config.nanDraw s.draws), ?_, isNaN64_nanBits _⟩,
    fun s q p hq harg hp => ⟨nanBits (Config.nanDraw s.draws), ?_, isNaN64_nanBits _⟩⟩
  · rw [exec_fdec hq harg, decodeFloat_double, hp]
    rfl
  · rw [exec_fdec hq harg, decodeFloat_single, hp]
    rfl

/-- Settles O45. -/
theorem fencReturnsThePattern : Obligations.FencReturnsThePattern := by
  intro s q f hq harg
  rw [exec_fenc hq harg, exec_fenc hq harg, encodeFloat_double, encodeFloat_single]
  exact ⟨rfl, rfl⟩

/-! ## The round trips -/

/-- A value that binary32 represents narrows to a pattern of that value: no other finite pattern is as near (R191). -/
theorem value32_narrow64 {f : F64} {q : BitVec 32} (hf : isNaN64 f = false) (h : value32 q = value64 f) :
    value32 (narrow64 f) = value64 f := by
  obtain ⟨hinf, -, hnear⟩ := narrowingIsToNearestEven f hf
  by_cases he : exponent64 f = 0x7FF
  · rw [isNaN64_eq_false_iff, value64, if_pos he] at hf
    rw [hinf he, value64, if_pos he, if_neg fun hne => hf (if_pos hne)]
  · have hval : value64 f = .finite (sign64 f) (units64 f) := if_neg he
    obtain ⟨hq, -, hunits⟩ := value32_eq_finite_iff.1 (h.trans hval)
    obtain ⟨r, hr, hdist⟩ := hnear he (hunits ▸ units32_lt hq)
    have hzero := (hdist q hq).1
    rw [hunits, Nat.dist_self, Nat.le_zero] at hzero
    rw [hr, hval, Nat.eq_of_dist_eq_zero hzero]

theorem isNaN64_widen32 {q : BitVec 32} (hq : isNaN32 q = false) : isNaN64 (widen32 q) = false := by
  rwa [isNaN64_eq_false_iff, wideningIsExact q hq, ← isNaN32_eq_false_iff]

/-- Narrowing undoes widening (R191). -/
theorem narrow64_widen32 {q : BitVec 32} (hq : isNaN32 q = false) : narrow64 (widen32 q) = q := by
  have hval := wideningIsExact q hq
  exact (value32_inj hq (hval.symm.trans (value32_narrow64 (isNaN64_widen32 hq) hval.symm).symm)).symm

/-- A datum of a value that binary32 represents is a widened pattern (R191). -/
theorem eq_widen32_of_value32_eq {f : F64} {q : BitVec 32} (hf : isNaN64 f = false) (h : value32 q = value64 f) :
    isNaN32 q = false ∧ f = widen32 q := by
  have hq : isNaN32 q = false := by rwa [isNaN32_eq_false_iff, h, ← isNaN64_eq_false_iff]
  exact ⟨hq, value64_inj hf (h.symm.trans (wideningIsExact q hq).symm)⟩

/-- Settles O46: at single precision narrowing undoes widening. -/
theorem encodeAfterDecode : Obligations.EncodeAfterDecode := by
  refine fun nan => ⟨fun p => ⟨_, decodeFloat_double nan p, ?_⟩, fun q => ⟨_, decodeFloat_single nan q, ?_⟩⟩
  · rw [encodeFloat_double]
    cases hp : isNaN64 p with
    | true => simp [isNaN64_nanBits]
    | false => simp [hp]
  · rw [encodeFloat_single]
    cases hq : isNaN32 q with
    | true => simp [isNaN64_nanBits]
    | false => simp [isNaN64_widen32 hq, narrow64_widen32 hq]

/-- Settles O47: a datum representable at single precision is a widened pattern, which narrowing gives back. -/
theorem decodeAfterEncode : Obligations.DecodeAfterEncode := by
  intro dp nan f
  cases dp with
  | true =>
    rw [encodeFloat_double]
    refine ⟨fun hf _ => ?_, fun hf => ⟨nanBits nan, ?_, isNaN64_nanBits nan⟩⟩
    · simp [decodeFloat_double, hf]
    · rw [hf]
      exact decodeFloat_double nan cqnan64
  | false =>
    rw [encodeFloat_single]
    refine ⟨fun hf hrep => ?_, fun hf => ⟨nanBits nan, ?_, isNaN64_nanBits nan⟩⟩
    · obtain ⟨q, h⟩ := hrep rfl
      obtain ⟨hq, rfl⟩ := eq_widen32_of_value32_eq hf h
      rw [hf, narrow64_widen32 hq]
      simp [decodeFloat_single, hq]
    · rw [hf]
      exact decodeFloat_single nan cqnan32

end Sys2Proof.Machine
end

section
/-! PROOFS. Exceptions (60_exceptions.md): which of OK, SHAPE_ERROR and RANGE_ERROR every operation answers, the illegal
command words, and the statements that follow. -/

namespace Sys2Proof.Machine

/-- Settles O15: of the four kinds of turn only an issue by no requester is refused. -/
theorem theBlockNeverStops : Obligations.TheBlockNeverStops := step_next_or_refused

/-! ## What an operation answers -/

/-- Position `k` is the first at which the payload meets the operation's RANGE_ERROR condition (R226). -/
def FirstRangeFailure (i : Instr) (arg : Payload) (k : Nat) : Prop :=
  RangeFails i arg k ∧ ∀ j, j < k → ¬ RangeFails i arg j

/-- The responses operation `i` may give to a payload, each with what must hold of the payload, in the order of the
checks (R221, R223, R225). -/
inductive Verdict (i : Instr) (arg : Payload) : Resp → Prop
  | shape (hshape : ShapeFails i arg) : Verdict i arg respShape
  | range (k : Nat) (hshape : ¬ ShapeFails i arg) (hfirst : FirstRangeFailure i arg k) : Verdict i arg (respRange k)
  | ok (p : Payload) (hshape : ¬ ShapeFails i arg) (hrange : ∀ k, ¬ RangeFails i arg k) : Verdict i arg (respOk p)

/-- At most one position is the first failing one. -/
theorem FirstRangeFailure.unique {i : Instr} {arg : Payload} {k k' : Nat} (h : FirstRangeFailure i arg k)
    (h' : FirstRangeFailure i arg k') : k = k' := by
  rcases Nat.lt_trichotomy k k' with hlt | rfl | hgt
  · exact absurd h.1 (h'.2 k hlt)
  · rfl
  · exact absurd h'.1 (h.2 k' hgt)

/-! A response tells which of the three cases holds, because their statuses differ. -/

theorem Verdict.eq_respShape_iff {i : Instr} {arg : Payload} {r : Resp} (h : Verdict i arg r) :
    r = respShape ↔ ShapeFails i arg := by
  cases h with
  | shape hshape => exact iff_of_true rfl hshape
  | range k hshape => exact iff_of_false nofun hshape
  | ok p hshape => exact iff_of_false nofun hshape

theorem Verdict.eq_respRange_iff {i : Instr} {arg : Payload} {r : Resp} (h : Verdict i arg r) (k : Nat) :
    r = respRange k ↔ ¬ ShapeFails i arg ∧ FirstRangeFailure i arg k := by
  cases h with
  | shape hshape => exact iff_of_false nofun fun hk => hk.1 hshape
  | range k' hshape hfirst =>
    constructor
    · intro hr
      obtain rfl : k' = k := congrArg Resp.index hr
      exact ⟨hshape, hfirst⟩
    · rintro ⟨-, hk⟩
      rw [hfirst.unique hk]
  | ok p hshape hrange => exact iff_of_false nofun fun hk => hrange k hk.2.1

theorem Verdict.ne_respIllegal {i : Instr} {arg : Payload} {r : Resp} (h : Verdict i arg r) : r ≠ respIllegal := by
  cases h <;> nofun

/-! ## Fetching the operand -/

/-- `fetch` takes from a payload of kind `k` within LMAX what `mk` makes such a payload of, and nothing from any other
payload (R70, R74). -/
structure Fetches {α : Type} (fetch : Payload → Option α) (mk : α → Payload) (k : Kind) : Prop where
  hit : ∀ arg, payloadKind arg = k → payloadTooLong arg = false → ∃ a, arg = mk a ∧ fetch arg = some a
  miss : ∀ arg, payloadKind arg ≠ k ∨ payloadTooLong arg = true → fetch arg = none

/-! Each kind has its fetch; a scalar is never too long, and a list is checked by `boundedList`. -/

theorem fetches_nat : Fetches natArg .pNat .nat := by
  constructor <;> intro arg <;> cases arg <;> simp [payloadKind, payloadTooLong, natArg]

theorem fetches_int : Fetches intArg .pInt .int := by
  constructor <;> intro arg <;> cases arg <;> simp [payloadKind, payloadTooLong, intArg]

theorem fetches_ints : Fetches intsArg .pInts .ints := by
  constructor <;> intro arg <;> cases arg <;> simp [payloadKind, payloadTooLong, intsArg, boundedList]

theorem fetches_bools : Fetches boolsArg .pBools .bools := by
  constructor <;> intro arg <;> cases arg <;> simp [payloadKind, payloadTooLong, boolsArg, boundedList]

theorem fetches_words : Fetches wordsArg .pWords .words := by
  constructor <;> intro arg <;> cases arg <;> simp [payloadKind, payloadTooLong, wordsArg, boundedList]

theorem fetches_longs : Fetches longsArg .pLongs .longs := by
  constructor <;> intro arg <;> cases arg <;> simp [payloadKind, payloadTooLong, longsArg, boundedList]

theorem fetches_pat : Fetches patArg .pPat .pat := by
  constructor <;> intro arg <;> cases arg <;> simp [payloadKind, payloadTooLong, patArg]

theorem fetches_f64 : Fetches f64Arg .pF64 .f64 := by
  constructor <;> intro arg <;> cases arg <;> simp [payloadKind, payloadTooLong, f64Arg]

/-! ## The verdict of each operation -/

/-- BPACK's payload of its kind and within LMAX has the wrong shape exactly when its length is not `n` (R223). -/
theorem shapeFails_bpack_iff {n : BitVec 16} {b : List Bool} (hfit : payloadTooLong (.pBools b) = false) :
    ShapeFails (.bpack n) (.pBools b) ↔ b.length ≠ n.toNat := by
  constructor
  · rintro (h | h | ⟨m, c, hi, harg, hlen⟩)
    · exact absurd rfl h
    · exact absurd (hfit.symm.trans h) nofun
    · cases hi
      cases harg
      exact hlen
  · exact fun h => .inr (.inr ⟨n, b, rfl, rfl, h⟩)

section Verdicts

variable {i : Instr} {arg : Payload}

/-- But for BPACK, a payload of the kind taken and within LMAX has the right shape (R223). -/
theorem not_shapeFails (hbpack : ∀ n, i ≠ .bpack n) (hkind : payloadKind arg = argKind i)
    (hfit : payloadTooLong arg = false) : ¬ ShapeFails i arg := by
  rintro (h | h | ⟨n, -, hn, -⟩)
  · exact h hkind
  · exact absurd (hfit.symm.trans h) nofun
  · exact hbpack n hn

/-- The check of the operand answers SHAPE_ERROR to a payload of another kind or above LMAX; the rest of the operation
sees the other payloads (R74). -/
theorem verdict_respArg {α : Type} {fetch : Payload → Option α} {mk : α → Payload} {op : α → Resp}
    (hf : Fetches fetch mk (argKind i))
    (hop : ∀ a, payloadKind (mk a) = argKind i → payloadTooLong (mk a) = false → Verdict i (mk a) (op a)) :
    Verdict i arg (respArg (fetch arg) op) := by
  by_cases hmiss : payloadKind arg ≠ argKind i ∨ payloadTooLong arg = true
  · rw [hf.miss arg hmiss]
    exact .shape (hmiss.imp_right .inl)
  · obtain ⟨hkind, hfit⟩ : payloadKind arg = argKind i ∧ payloadTooLong arg = false := by simpa using hmiss
    obtain ⟨a, rfl, ha⟩ := hf.hit arg hkind hfit
    rw [ha]
    exact hop a hkind hfit

/-- A scalar conversion that fails exactly where the operand is outside the operation's domain. -/
theorem verdict_respDomain {α : Type} {wrap : α → Payload} {r : Option α} {outside : Prop}
    (hshape : ¬ ShapeFails i arg) (hrange : ∀ k, RangeFails i arg k ↔ k = 0 ∧ outside) (hr : r = none ↔ outside) :
    Verdict i arg (respDomain wrap r) := by
  cases r with
  | none => exact .range 0 hshape ⟨(hrange 0).2 ⟨rfl, hr.1 rfl⟩, fun _ hj => absurd hj (Nat.not_lt_zero _)⟩
  | some a => exact .ok _ hshape fun k hk => nomatch hr.2 ((hrange k).1 hk).2

/-- A list conversion that names the first element outside the operation's domain. -/
theorem verdict_respList {α β : Type} {wrap : List β → Payload} {r : Except Nat (List β)} {l : List α}
    {outside : α → Prop} (hshape : ¬ ShapeFails i arg)
    (hrange : ∀ k, RangeFails i arg k ↔ ∃ v, l[k]? = some v ∧ outside v)
    (hok : (∀ v ∈ l, ¬ outside v) → ∃ out, r = .ok out)
    (herr : ∀ pre v post, l = pre ++ v :: post → (∀ w ∈ pre, ¬ outside w) → outside v → r = .error pre.length) :
    Verdict i arg (respList wrap r) := by
  classical
  cases hfind : l.find? (fun v => outside v) with
  | none =>
    have hin : ∀ v ∈ l, ¬ outside v := by simpa using hfind
    obtain ⟨out, rfl⟩ := hok hin
    refine .ok _ hshape fun k hk => ?_
    obtain ⟨v, hv, hout⟩ := (hrange k).1 hk
    exact hin v (List.mem_of_getElem? hv) hout
  | some v =>
    obtain ⟨hv, pre, post, rfl, hpre⟩ := List.find?_eq_some_iff_append.1 hfind
    have hin : ∀ w ∈ pre, ¬ outside w := by simpa using hpre
    have hout : outside v := by simpa using hv
    rw [herr pre v post rfl hin hout]
    refine .range _ hshape ⟨(hrange _).2 ⟨v, by simp, hout⟩, fun j hj hk => ?_⟩
    obtain ⟨w, hw, hwout⟩ := (hrange j).1 hk
    rw [List.getElem?_append_left hj] at hw
    exact hin w (List.mem_of_getElem? hw) hwout

variable {f : Int → Option Int} {lo hi : Int} {g : Int → Int}

/-- A conversion fails exactly outside its domain. -/
theorem ConvertsOn.eq_none_iff (h : ConvertsOn f lo hi g) (v : Int) : f v = none ↔ v < lo ∨ v > hi := by
  refine ⟨fun hnone => ?_, h.outside v⟩
  by_contra hin
  obtain ⟨hlo, hhi⟩ : lo ≤ v ∧ v ≤ hi := by omega
  exact nomatch (h.inside v hlo hhi).symm.trans hnone

/-- The scalar form of a conversion, whose row of R221 is its domain. -/
theorem verdict_respScalar (h : ConvertsOn f lo hi g) (hbpack : ∀ n, i ≠ .bpack n) (hkind : argKind i = .int)
    (hrange : ∀ v k, RangeFails i (.pInt v) k ↔ k = 0 ∧ (v < lo ∨ v > hi)) : Verdict i arg (respScalar f arg) :=
  verdict_respArg (hkind ▸ fetches_int) fun v hk hfit =>
    verdict_respDomain (not_shapeFails hbpack hk hfit) (hrange v) (h.eq_none_iff v)

/-- The list form of a conversion, whose row of R221 is its domain. -/
theorem verdict_respListForm (h : ConvertsOn f lo hi g) (hbpack : ∀ n, i ≠ .bpack n) (hkind : argKind i = .ints)
    (hrange : ∀ l k, RangeFails i (.pInts l) k ↔ ∃ v, l[k]? = some v ∧ (v < lo ∨ v > hi)) :
    Verdict i arg (respListForm f arg) := by
  refine verdict_respArg (hkind ▸ fetches_ints) fun l hk hfit =>
    verdict_respList (not_shapeFails hbpack hk hfit) (hrange l) (fun hin => ⟨_, listMapFrom_of_forall_mem h ?_⟩)
      (fun pre v post hl hin hout => hl ▸ listMapFrom_of_split h ?_ hout)
  all_goals
    intro w hw
    have := hin w hw
    omega

end Verdicts

/-- BPACK has no row in R221; its length check is one of R223. -/
theorem verdict_respBpack (n : BitVec 16) (arg : Payload) : Verdict (.bpack n) arg (respBpack n.toNat arg) := by
  refine verdict_respArg fetches_bools fun b _ hfit => ?_
  have hshape := shapeFails_bpack_iff (n := n) hfit
  split
  next hlen => exact .shape (hshape.2 hlen)
  next hlen => exact .ok _ (mt hshape.1 hlen) fun _ => id

/-- L2W names the first value that is no long, in long mode (R153, R221). -/
theorem verdict_respL2w (le ll : Bool) (arg : Payload) : Verdict (.l2w le ll) arg (respL2w le ll arg) := by
  refine verdict_respArg fetches_longs fun xs hk hfit =>
    verdict_respList (outside := fun x => longInRange ll x = false) (not_shapeFails nofun hk hfit) (fun k => ?_)
      (fun hin => ⟨_, longsToWordsFrom_of_inRange le 0 (by simpa using hin)⟩) (fun pre x post hxs hin hout => ?_)
  · cases ll <;> simp [RangeFails, ← Bool.not_eq_true, longInRange_iff]
  · rw [hxs, longsToWordsFrom_of_split le 0 post (by simpa using hin) hout, Nat.zero_add]

/-- FDEC leaves its domain exactly on a single-precision pattern of more than 32 bits (R189, R221). -/
theorem decodeFloat_eq_none_iff (dp : Bool) (nan : NaN64) (p : BitVec 64) :
    decodeFloat dp nan p = none ↔ dp = false ∧ 2 ^ 32 ≤ p.toNat := by
  cases dp with
  | true => simp [decodeFloat_double]
  | false =>
    refine ⟨fun h => ⟨rfl, ?_⟩, fun h => decodeFloat_single_of_ge nan h.2⟩
    by_contra! hlt
    have hp : (p.setWidth 32).setWidth 64 = p := by
      apply BitVec.eq_of_toNat_eq
      rw [BitVec.toNat_setWidth, BitVec.toNat_setWidth]
      omega
    rw [← hp, decodeFloat_single] at h
    cases h

theorem verdict_respFdec (dp : Bool) (nan : NaN64) (arg : Payload) :
    Verdict (.fdec dp) arg (respFdec dp nan arg) :=
  verdict_respArg fetches_pat fun p hk hfit =>
    verdict_respDomain (not_shapeFails nofun hk hfit) (fun k => by cases dp <;> simp [RangeFails])
      (decodeFloat_eq_none_iff dp nan p)

/-- Every operation's response is the one R221 and R223 name for the payload, in the order of R225. -/
theorem verdict_response (i : Instr) (nan : NaN64) (arg : Payload) : Verdict i arg (i.response nan arg) := by
  cases i with
  | bits n => exact verdict_respArg fetches_nat fun v hk hfit => .ok _ (not_shapeFails nofun hk hfit) fun _ => id
  | bpack n => exact verdict_respBpack n arg
  | tcs n => exact verdict_respScalar (toSigned_convertsOn _) nofun rfl fun _ _ => .rfl
  | tcu n => exact verdict_respScalar (toUnsigned_convertsOn _) nofun rfl fun _ _ => .rfl
  | tc n => exact verdict_respScalar (toOther_convertsOn _) nofun rfl fun _ _ => .rfl
  | tcsl n => exact verdict_respListForm (toSigned_convertsOn _) nofun rfl fun _ _ => .rfl
  | tcul n => exact verdict_respListForm (toUnsigned_convertsOn _) nofun rfl fun _ _ => .rfl
  | tcl n => exact verdict_respListForm (toOther_convertsOn _) nofun rfl fun _ _ => .rfl
  | w2l le ll => exact verdict_respArg fetches_words fun ws hk hfit => .ok _ (not_shapeFails nofun hk hfit) fun _ => id
  | l2w le ll => exact verdict_respL2w le ll arg
  | fdec dp => exact verdict_respFdec dp nan arg
  | fenc dp => exact verdict_respArg fetches_f64 fun f hk hfit => .ok _ (not_shapeFails nofun hk hfit) fun _ => id

/-! ## SHAPE_ERROR and RANGE_ERROR -/

/-- Two answers to one request in one state are the same exactly when the responses are. -/
theorem next_answer_eq_iff (s : State) (q : Req) (r r' : Resp) :
    (.next (s.answer q r) : Host.Outcome State Fault Refusal) = .next (s.answer q r') ↔ r = r' :=
  ⟨fun h => answer_inj (Host.Outcome.next.inj h), fun h => by rw [h]⟩

/-- An instruction answers the request served with `r` exactly when `r` is its response to the payload. -/
theorem exec_eq_answer_iff {s : State} {q : Req} (hq : s.selected = some q) (i : Instr) (r : Resp) :
    exec i s = .next (s.answer q r) ↔ i.response (Config.nanDraw s.draws) q.arg = r := by
  rw [exec_of_selected hq, next_answer_eq_iff]

/-- The length check fails exactly on a list longer than LMAX (R74). -/
theorem payloadTooLong_iff (arg : Payload) :
    payloadTooLong arg = true ↔ ∃ m, Config.lmax = some m ∧
      ((∃ l, arg = .pBools l ∧ m < l.length) ∨ (∃ l, arg = .pInts l ∧ m < l.length) ∨
        (∃ l, arg = .pWords l ∧ m < l.length) ∨ (∃ l, arg = .pLongs l ∧ m < l.length)) := by
  cases arg <;> simp [payloadTooLong, tooLong_iff]

/-- Settles O21: the verdict on the payload, with the length check spelled out. -/
theorem shapeErrorsAreThoseOfR223 : Obligations.ShapeErrorsAreThoseOfR223 := by
  intro i s q hq
  rw [← payloadTooLong_iff]
  exact (exec_eq_answer_iff hq i respShape).trans (verdict_response i _ _).eq_respShape_iff

/-- Settles O22: the verdict on the payload. -/
theorem rangeErrorsAreThoseOfR221 : Obligations.RangeErrorsAreThoseOfR221 :=
  fun i _ _ k hq => (exec_eq_answer_iff hq i (respRange k)).trans ((verdict_response i _ _).eq_respRange_iff k)

/-! ## ILLEGAL_COMMAND -/

/-- The fields of an illegal command word: RSV is not 0, the opcode is reserved, a field the operation does not read is
not 0, or the width is out of range (R68, R222). -/
def IllegalFields (f : Fields) : Prop :=
  f.rsv.toNat ≠ 0 ∨
  12 ≤ f.opc.toNat ∨
  (f.opc.toNat ≤ 7 ∧
    (f.le = true ∨ f.ll = true ∨ f.dp = true ∨ f.width.toNat = 0 ∨ Config.nmax < f.width.toNat)) ∨
  ((f.opc.toNat = 8 ∨ f.opc.toNat = 9) ∧ (f.dp = true ∨ f.width.toNat ≠ 0)) ∨
  ((f.opc.toNat = 10 ∨ f.opc.toNat = 11) ∧ (f.le = true ∨ f.ll = true ∨ f.width.toNat ≠ 0))

/-- A check before a decoder refuses a word, or leaves it to the decoder. -/
theorem instr?_ite_illegal_eq_none_iff (check : Bool) (why : Illegal) (d : Decoded) :
    (if check then Decoded.illegal why else d).instr? = none ↔ check = true ∨ d.instr? = none := by
  cases check <;> simp [Decoded.instr?]

/-- A field is found nonzero by its number. -/
theorem bne_zero_iff_toNat {n : Nat} (b : BitVec n) : (b != 0) = true ↔ b.toNat ≠ 0 := by
  simp [← BitVec.toNat_inj]

theorem instr?_op_ne_none (i : Instr) : (Decoded.op i).instr? ≠ none := nofun

/-! What each group of operations refuses (R68). -/

theorem decodeWidthOp_eq_none_iff (op : BitVec 16 → Instr) (f : Fields) :
    (decodeWidthOp op f).instr? = none ↔
      f.le = true ∨ f.ll = true ∨ f.dp = true ∨ f.width.toNat = 0 ∨ Config.nmax < f.width.toNat := by
  have hwidth : (if legalWidth f.width then Decoded.op (op f.width) else .illegal .widthOutOfRange).instr? = none ↔
      f.width.toNat = 0 ∨ Config.nmax < f.width.toNat := by
    split
    next h =>
      obtain ⟨hlo, hhi⟩ := (legalWidth_iff _).1 h
      exact iff_of_false (instr?_op_ne_none _) (by omega)
    next h =>
      rw [legalWidth_iff] at h
      exact iff_of_true rfl (by omega)
  rw [decodeWidthOp, instr?_ite_illegal_eq_none_iff, hwidth, Bool.or_eq_true, Bool.or_eq_true, or_assoc, or_assoc]

theorem decodeOrderOp_eq_none_iff (op : Bool → Bool → Instr) (f : Fields) :
    (decodeOrderOp op f).instr? = none ↔ f.dp = true ∨ f.width.toNat ≠ 0 := by
  rw [decodeOrderOp, instr?_ite_illegal_eq_none_iff, or_iff_left (instr?_op_ne_none _), Bool.or_eq_true,
    bne_zero_iff_toNat]

theorem decodePrecisionOp_eq_none_iff (op : Bool → Instr) (f : Fields) :
    (decodePrecisionOp op f).instr? = none ↔ f.le = true ∨ f.ll = true ∨ f.width.toNat ≠ 0 := by
  rw [decodePrecisionOp, instr?_ite_illegal_eq_none_iff, or_iff_left (instr?_op_ne_none _), Bool.or_eq_true,
    Bool.or_eq_true, bne_zero_iff_toNat, or_assoc]

/-- The decoder refuses exactly the words with illegal fields (R68). -/
theorem decode_eq_none_iff (cmd : Command) : (decode cmd).instr? = none ↔ IllegalFields (fieldsOf cmd) := by
  rw [decode, instr?_ite_illegal_eq_none_iff, bne_zero_iff_toNat, IllegalFields]
  refine or_congr_right ?_
  generalize fieldsOf cmd = f
  unfold decodeFields
  split
  case h_13 =>
    have hopc : 12 ≤ f.opc.toNat := by
      simp only [imp_false] at *
      omega
    exact iff_of_true rfl (.inl hopc)
  case h_9 hopc | h_10 hopc => simp [decodeOrderOp_eq_none_iff, hopc]
  case h_11 hopc | h_12 hopc => simp [decodePrecisionOp_eq_none_iff, hopc]
  all_goals next hopc => simp [decodeWidthOp_eq_none_iff, hopc]

/-- An illegal command is answered ILLEGAL_COMMAND, whatever its payload (R222). -/
theorem execResponse_of_illegal {cmd : Command} (h : (decode cmd).instr? = none) (arg : Payload) (nan : NaN64) :
    execResponse cmd arg nan = respIllegal := by
  cases hd : decode cmd with
  | illegal why => rw [execResponse, hd]
  | op i => exact nomatch hd ▸ h

/-- A legal command is answered with its operation's response. -/
theorem execResponse_of_op {cmd : Command} {i : Instr} (h : decode cmd = .op i) (arg : Payload) (nan : NaN64) :
    execResponse cmd arg nan = i.response nan arg := by
  rw [execResponse, h]

/-- No operation answers ILLEGAL_COMMAND, so only an illegal command is answered so. -/
theorem execResponse_eq_respIllegal_iff (cmd : Command) (arg : Payload) (nan : NaN64) :
    execResponse cmd arg nan = respIllegal ↔ (decode cmd).instr? = none := by
  refine ⟨fun h => ?_, fun h => execResponse_of_illegal h arg nan⟩
  cases hd : decode cmd with
  | illegal why => rfl
  | op i => exact absurd ((execResponse_of_op hd arg nan).symm.trans h) (verdict_response i nan arg).ne_respIllegal

/-- Where the block serves `q`, the step answers it with `r` exactly when `r` is `Exec`'s response to it. -/
theorem step_eq_answer_iff {s t : State} {q : Req} (ht : s.blockTurn = some t) (hq : t.selected = some q) (r : Resp) :
    step s = .next (t.answer q r) ↔ execResponse q.cmd q.arg (Config.nanDraw t.draws) = r := by
  rw [step_of_selected ht hq, next_answer_eq_iff]

/-- Settles O6: the decoder's checks, in the arithmetic of the command word's fields. -/
theorem illegalCommandsAreAnswered : Obligations.IllegalCommandsAreAnswered := by
  intro s t q ht hq
  obtain ⟨hwidth, hrsv, hdp, hll, hle, hopc⟩ := fieldsAreTheBitsOfTheCommand q.cmd
  have hfields := decode_eq_none_iff q.cmd
  rw [IllegalFields, hwidth, hrsv, hdp, hll, hle, hopc] at hfields
  exact (step_eq_answer_iff ht hq respIllegal).trans ((execResponse_eq_respIllegal_iff _ _ _).trans hfields)

/-! ## Priority, and what is no error -/

/-- Settles O23: the decoder comes first, and the verdict on a legal command has the shape before the range. -/
theorem errorPriority : Obligations.ErrorPriority := by
  intro s t q ht hq
  refine ⟨fun h => (step_eq_answer_iff ht hq respIllegal).2 (execResponse_of_illegal h _ _), fun i hd => ?_⟩
  have hverdict := verdict_response i (Config.nanDraw t.draws) q.arg
  rw [← execResponse_of_op hd] at hverdict
  exact ⟨fun hshape => (step_eq_answer_iff ht hq respShape).2 (hverdict.eq_respShape_iff.2 hshape),
    fun hshape k hk hfirst =>
      (step_eq_answer_iff ht hq (respRange k)).2 ((hverdict.eq_respRange_iff k).2 ⟨hshape, hk, hfirst⟩)⟩

/-- W2L does not see the words of a partial chunk (R152, R224): by R154 the other words are those of its values, and
joining them gives the values back. -/
theorem wordsToLongs_take_wholeChunks (le ll : Bool) (ws : List Word) :
    wordsToLongs le ll (ws.take (ws.length - ws.length % chunkSize ll)) = wordsToLongs le ll ws := by
  have hin : ∀ x ∈ wordsToLongs le ll ws, longInRange ll x = true := fun _ => longInRange_of_mem_wordsToLongs
  have hwhole : (wordsToLongs le ll ws).flatMap (splitLong le ll) = ws.take (ws.length - ws.length % chunkSize ll) :=
    Except.ok.inj ((longsToWordsFrom_of_inRange le 0 hin).symm.trans (longsToWordsFrom_wordsToLongs le ll ws))
  rw [← hwhole, wordsToLongs_flatMap_splitLong le hin]

/-- BITS does not see the bits from position `n` on (R100, R224): by R102 the other bits are those of its list. -/
theorem bitsFromInt_mod_two_pow (n v : Nat) : bitsFromInt n (v % 2 ^ n) = bitsFromInt n v := by
  rw [← intFromBits_bitsFromInt, bitsFromInt_intFromBits (length_bitsFromInt n v)]

/-- Settles O24: each of the three answers OK, and what it ignores does not change its result. -/
theorem silentNonErrors : Obligations.SilentNonErrors := by
  refine ⟨fun le ll s q ws hq harg hfit => ⟨_, ?_, (wordsToLongs_take_wholeChunks le ll ws).symm⟩,
    fun n s q v hq harg => ⟨_, ?_, (bitsFromInt_mod_two_pow n.toNat v).symm⟩,
    fun s q f hq harg => ⟨_, exec_fenc hq harg false⟩⟩
  · rw [exec_of_selected hq, harg, Instr.response, respW2l_pWords le ll hfit]
    rfl
  · rw [exec_of_selected hq, harg, Instr.response, respBits_pNat]
    rfl

end Sys2Proof.Machine
end

section
/-! PROOFS. Reset (70_reset_and_hazards.md): the reset turn with the issue after it, and the state after reset. -/

namespace Sys2Proof.Machine

/-- Settles O13: the rule of the reset turn, and that of the issue turn in the state after it, where the request issued
goes behind no other. -/
theorem resetAbandonsTheRequestsInFlight : Obligations.ResetAbandonsTheRequestsInFlight := by
  refine fun s rest hs => ⟨step_of_reset hs, fun q more hrest hq => ?_⟩
  rw [step_of_issue hrest hq, List.nil_append]

/-- Nothing is unanswered or delivered right after reset, so the invariant asks nothing of it (R251, log entry 5). -/
theorem inv_reset : State.reset.Inv where
  requester := reset_unanswered ▸ List.forall_mem_nil _
  served := reset_delivered ▸ List.forall_mem_nil _

/-- Settles O17. -/
theorem resetMeetsTheInvariant : Obligations.ResetMeetsTheInvariant := ⟨reset_inFlight, reset_delivered, inv_reset⟩

end Sys2Proof.Machine
end
